-- ==== Sys2Proof/Word.lean ====
section
/-! DEFINITION. Word.lean: the bit-vector types of the spec's values (spec/00_scope.md rule R5 and
section 5) and the size of the buffer space (spec/20_memory.md rule R21). -/

namespace Sys2Proof

/-- A byte: one unit of the buffer space, one half of a stored PHY header. -/
abbrev Byte := BitVec 8

/-- A 16-bit word in the source's sense (rule R46), and a CRC-16 register (rule R51). -/
abbrev Half := BitVec 16

/-- A 32-bit register, buffer address or CRC length (rule R5). -/
abbrev Word := BitVec 32

/-- The buffer space has `2^32` bytes, byte 0 to byte 0xFFFFFFFF (rule R21). -/
abbrev spaceSize : Nat := 4294967296

end Sys2Proof
end

