-- ==== Sys2Proof/Config.lean ====
section
/-! DEFINITION. Config.lean: what the spec fixes by wiring (rules R1 to R4), the parameters it leaves
open for the platform (rule R6), and the free values: constants with no body, so that nothing can
be proved of their values. -/

namespace Sys2Proof

/-- How the platform answers a one-byte read on the buffer port. Rule R6's `MEM_OK(addr)` is
`memory`; the other kinds are the ways it can fail to hold, or the reads that the spec sets apart. -/
inductive BusKind where
  /-- The read completes with data: `MEM_OK(addr)` holds. -/
  | memory
  /-- The platform answers with a bus error: `MEM_OK(addr)` fails (rules R6, R34, R60). -/
  | busError
  /-- Reading has a side effect: a CRC over it is refused (rule R32). -/
  | sideEffect
  /-- The platform never answers the read: the engine is stuck (rule R96). -/
  | silent
deriving DecidableEq, Repr

/-- One entry of the platform's map of the buffer space: the addresses `first` to `last`. -/
structure Region where
  first : Nat
  last  : Nat
  kind  : BusKind
deriving DecidableEq, Repr

/-- The reading of "the bit-reversed length" (rule R69, decision D12). -/
inductive PhrHiOrder where
  /-- The spec's choice: the low three bits of `p0` are those of `REV11(L)`. -/
  | twice
  /-- The alternative, not adopted: the low three bits of `p0` are `L[10:8]` in natural order. -/
  | once
deriving DecidableEq, Repr

namespace Config

/-- `POLY16` (rule R1). -/
def poly16 : Half := 0x1021#16
/-- `SEED16` (rule R1). -/
def seed16 : Half := 0x0000#16
/-- `XOROUT16` (rule R2): the CRC-16 has no final XOR. -/
def xorOut16 : Half := 0x0000#16
/-- `POLY32` (rule R1). -/
def poly32 : Word := 0x04C11DB7#32
/-- `SEED32` (rule R1). -/
def seed32 : Word := 0xFFFFFFFF#32
/-- `XOROUT32` (rule R1), the final complement. -/
def xorOut32 : Word := 0xFFFFFFFF#32
/-- `CRC32_MIN_LEN` (rule R3). -/
def crc32MinLen : Nat := 4
/-- `PHR_HI_ORDER`: this hardware's value is the spec's choice (rule R69, decision D12). -/
def phrHiOrder : PhrHiOrder := .twice

/-- `REG_BASE`, OPEN in the spec (rule R6). It is 32-byte aligned, so its bits 31 to 5 say all of it.
It is the value of `State.regBase` at reset; log entry 2. -/
opaque regBase : BitVec 27

/-- The platform's map of the buffer space, OPEN in the spec (rule R6's `MEM_OK`).
It is the value of `State.map` at reset; log entry 2. -/
opaque memMap : List Region

/-- FREE VALUE: what a host read of `RES` returns while `BUSY = 1` (rule R11, decision D18), one draw
per read, numbered by `State.draws`; log entry 4. -/
opaque busyRes : Nat → Word

/-- FREE VALUE: the byte that an address of the buffer space holds while nothing has written it, one
draw per byte, fixed once drawn (rule R87; spec/93 I9); log entry 3. -/
opaque unwrittenByte : Nat → Byte

end Config

end Sys2Proof
end

