-- ==== Sys2Proof/Syntax.lean ====
section
/-! DEFINITION. Syntax.lean: the commands of the block, one constructor per row of
spec/opcode_table.json. A command word carries no operand and no immediate (spec/30_encoding.md
rule R41), so no constructor has a field. -/

namespace Sys2Proof

/-- The six commands (rule R39). -/
inductive Instr where
  /-- `REVB`: reverse the bits of a byte (rule R49). -/
  | revb
  /-- `REVW`: reverse the bits of a 16-bit word (rule R50). -/
  | revw
  /-- `CRC16`: CRC-16 of a buffer (rule R57). -/
  | crc16
  /-- `CRC32`: CRC-32 of a buffer (rule R58). -/
  | crc32
  /-- `HENC`: encode a PHY header (rule R65). -/
  | henc
  /-- `HDEC`: decode a PHY header (rule R66). -/
  | hdec
deriving DecidableEq, Repr

end Sys2Proof
end

