-- ==== Sys2Proof/WellFormed.lean ====
section
/-! DEFINITION. WellFormed.lean: the checks on what is written into the machine. A command has no
field, so every term of `Instr` is well formed; what can be ill formed is a command WORD (rules R38
and R39) and an entry of the platform's map (rule R6: a predicate over 32-bit addresses). -/

namespace Sys2Proof

/-- A command word is legal exactly when `RSV = 0` and `OP` is one of 0x1 to 0x6 (rule R39). -/
abbrev LegalCommand (w : Word) : Prop :=
  w.extractLsb' 4 28 = 0#28 ∧ 1 ≤ (w.extractLsb' 0 4).toNat ∧ (w.extractLsb' 0 4).toNat ≤ 6

/-- A region of the platform's map lists addresses of the buffer space, from the lower to the
higher. -/
abbrev Region.WellFormed (r : Region) : Prop := r.first ≤ r.last ∧ r.last < spaceSize

end Sys2Proof
end

