-- ==== Sys2Proof/Decode.lean ====
section
/-! DEFINITION. Decode.lean: the total decoder of command words (spec/30_encoding.md rules R38 to
R40), its byte form on the little-endian host port (rule R26), and the encoder. -/

namespace Sys2Proof

/-- Why bits name no command. An accepted word that is rejected completes with `ILLEGAL_CMD`
(rule R40); `truncated` is for a byte string shorter than one command word. -/
inductive DecodeError where
  /-- `RSV`, bits 31 to 4, is not 0. -/
  | reservedBits
  /-- `OP` is 0x0 or 0x7 to 0xF. -/
  | reservedOp
  /-- Fewer than four bytes. -/
  | truncated
deriving DecidableEq, Repr

/-- Field `OP` of a command word (rule R38). -/
def opField (w : Word) : BitVec 4 := w.extractLsb' 0 4

/-- Field `RSV` of a command word (rule R38). -/
def rsvField (w : Word) : BitVec 28 := w.extractLsb' 4 28

/-- The decoder of rule R39: `RSV` is looked at first, then `OP`. -/
def decodeWord (w : Word) : Except DecodeError Instr :=
  if rsvField w = 0#28 then
    match (opField w).toNat with
    | 1 => .ok .revb
    | 2 => .ok .revw
    | 3 => .ok .crc16
    | 4 => .ok .crc32
    | 5 => .ok .henc
    | 6 => .ok .hdec
    | _ => .error .reservedOp
  else .error .reservedBits

/-- The word whose byte at offset `+k` is the `k`-th argument: byte `k` is bits `[8k+7:8k]`
(rule R26). -/
def wordOfBytes (x0 x1 x2 x3 : Byte) : Word := x3 ++ x2 ++ x1 ++ x0

/-- The byte at offset `+k` of a register (rule R26). -/
def byteLane (w : Word) (k : Nat) : Byte := w.extractLsb' (8 * k) 8

/-- The decoder on bytes: the first four are one command word, the rest is handed back. -/
def decodeBytes : List Byte → Except DecodeError (Instr × List Byte)
  | x0 :: x1 :: x2 :: x3 :: rest => (decodeWord (wordOfBytes x0 x1 x2 x3)).map (·, rest)
  | _ => .error .truncated

/-- The full command word of each command (rule R39's table). -/
def encode : Instr → Word
  | .revb  => 0x00000001#32
  | .revw  => 0x00000002#32
  | .crc16 => 0x00000003#32
  | .crc32 => 0x00000004#32
  | .henc  => 0x00000005#32
  | .hdec  => 0x00000006#32

/-- The encoder on bytes, the lowest address first (rule R26). -/
def encodeBytes (i : Instr) : List Byte := (List.range 4).map (byteLane (encode i))

/-- The command word whose low `nbits` bits are those of `w`, the bits above them 0. -/
def tableWord (nbits w : Nat) : Word := BitVec.ofNat 32 (w % 2 ^ nbits)

/-- What the decoder reads from the bytes of `tableWord nbits w`; an instruction of this machine has
no bits above bit 31, so a longer `nbits` is rejected. -/
def decodeTableWord (nbits w : Nat) : Option Instr :=
  if nbits ≤ 32 then
    match decodeBytes ((List.range 4).map (byteLane (tableWord nbits w))) with
    | .ok (i, _) => some i
    | .error _ => none
  else none

end Sys2Proof
end

