-- ==== Sys2Proof/Machine/State.lean ====
section
/-! DEFINITION. Machine/State.lean: the state of the system: the block (spec/10_state.md), the
platform around it as far as the spec describes it (spec/20_memory.md), the host's script and the
order of moves (spec/60_exceptions.md rule R79), and the model's own bookkeeping. Plain data. -/

namespace Sys2Proof.Machine

/-- `STATUS`, field by field (rule R12). Bits 31 to 8 are hard-wired 0 and hold nothing: the one
reader, `Status.word`, gives them as 0. -/
structure Status where
  busy  : Bool
  done  : Bool
  err   : Bool
  drop  : Bool
  ecode : BitVec 4
deriving DecidableEq, Repr

/-- Which CRC an engine runs (rule R17). -/
inductive CrcKind where
  | c16
  | c32
deriving DecidableEq, Repr

/-- The hidden engine state (rule R17). -/
inductive Engine where
  /-- No command is running. -/
  | idle
  /-- A command accepted but not yet begun: the raw word and the operands latched with it. -/
  | pending (cmd a n : Word)
  /-- A CRC in progress: `i` is the index of the next byte, `c` the CRC register. -/
  | crc (kind : CrcKind) (a n : Word) (i : BitVec 33) (c : Word)
deriving DecidableEq, Repr

/-- The width of a host access to the register window; only `word` is admitted (rules R22, R23). DESIGN
CHOICE: the other widths are 8, 16 and 64 bits, since the spec does not list them (log entry 18). -/
inductive AccessSize where
  | byte
  | half
  | word
  | dword
deriving DecidableEq, Repr

/-- The five registers of the window (rule R7). -/
inductive Reg where
  | cmd
  | status
  | opa
  | opb
  | res
deriving DecidableEq, Repr

/-- One statement of a host program (rule R43), at the level of the bus: `wr REG, imm` and `rd REG`
are a `write` and a `read` at `REG_BASE + offset(REG)`, of size `word`. The other sizes and
addresses are the accesses that rule R23 answers with a bus error. -/
inductive HostStmt where
  /-- One host write of `data` on the host port. -/
  | write (addr : Word) (size : AccessSize) (data : Word)
  /-- One host read on the host port. -/
  | read (addr : Word) (size : AccessSize)
  /-- `poll`: repeat `rd STATUS` until `STATUS.BUSY = 0`. -/
  | poll
  /-- `mem [addr] = x0 x1 ...`: byte stores to the platform's memory, one a step. -/
  | mem (addr : Nat) (bytes : List Byte)
deriving DecidableEq, Repr

/-- Who moves in a step (rules R79 and R85). -/
inductive Turn where
  /-- One host access. -/
  | host
  /-- One engine step. -/
  | engine
  /-- The reset input is asserted. -/
  | reset
deriving DecidableEq, Repr

/-- What the block's host port answered last. -/
inductive HostReply where
  /-- No access yet. -/
  | none
  /-- A write was taken, ignored or dropped: the bus does not tell which. -/
  | ack
  /-- A read returned this value. -/
  | data (v : Word)
  /-- The access was answered with a bus error (rule R23). -/
  | busError
  /-- The address lies outside the register window: the access did not reach the block. -/
  | notSelected
deriving DecidableEq, Repr

/-- Memory: the bytes that something has written, as (address, byte) pairs. An address that is not
listed has not been written and reads as `Config.unwrittenByte`; log entry 3. -/
abbrev Memory := List Host.Cell

/-- The canonical form: addresses of the buffer space, strictly rising. An unlisted address holds
no written byte, so no entry says what an unlisted address says (log entry 3), and equal contents
are equal lists. -/
abbrev Memory.WellFormed (m : Memory) : Prop :=
  m.Pairwise (fun x y => x.1 < y.1) ∧ ∀ c ∈ m, c.1 < spaceSize

/-- The state of the system. -/
structure State where
  /-- Block: operand A (rule R9). -/
  opa     : Word
  /-- Block: operand B (rule R10). -/
  opb     : Word
  /-- Block: the result of the last command that completed without error (rule R11). -/
  res     : Word
  /-- Block: the status register (rule R12). -/
  status  : Status
  /-- Block: the engine (rule R17). -/
  engine  : Engine
  /-- Platform: the buffer space (rule R21). -/
  mem     : Memory
  /-- Platform: which addresses answer a buffer read, and how (rule R6's `MEM_OK`). -/
  map     : List Region
  /-- Platform: bits 31 to 5 of `REG_BASE` (rule R6); bits 4 to 0 are 0. -/
  regBase : BitVec 27
  /-- Host: the statements it has still to execute, the next first (rule R43). -/
  host    : List HostStmt
  /-- Who moves in the coming steps, the next first; when empty, a busy engine moves before the host
  (rule R79; log entry 5). -/
  sched   : List Turn
  /-- Host: the answer to its last access to the host port. -/
  reply   : HostReply
  /-- Observer: the buffer-port reads performed, the oldest first (rules R17 and R29; log entry 6). -/
  reads   : List Nat
  /-- MODEL'S OWN: how many free values host reads of `RES` have drawn (log entry 4). -/
  draws   : Nat
deriving DecidableEq, Repr

/-- Why the machine stops with a fault. -/
inductive Fault where
  /-- Raised by a host `mem` statement that would store at an address above 0xFFFFFFFF, which the
  buffer space does not have (rule R21). SAFE: the machine stops, nothing is written. -/
  | outsideBufferSpace (addr : Nat)
deriving DecidableEq, Repr

/-- Why the model has no move. -/
inductive Refusal where
  /-- Raised by an arm of `exec` whose instruction has no meaning yet. SAFE. -/
  | notModelled (mnemonic : String)
  /-- Raised by a CRC command whose next buffer read is at an address whose reads have side effects:
  rule R32 says that a model refuses such a command. SAFE. -/
  | sideEffectBuffer (addr : Nat)
deriving DecidableEq, Repr

/-- `STATUS` after reset (rule R20). -/
def Status.reset : Status := ⟨false, false, false, false, 0#4⟩

/-- The machine right after reset (rule R20). The platform's parameters are the OPEN constants of
Config (log entry 2), nothing is written in memory (log entry 3) and the host has no program. -/
def State.reset : State where
  opa := 0x00000000#32
  opb := 0x00000000#32
  res := 0x00000000#32
  status := Status.reset
  engine := .idle
  mem := []
  map := Config.memMap
  regBase := Config.regBase
  host := []
  sched := []
  reply := .none
  reads := []
  draws := 0

end Sys2Proof.Machine
end

