-- ==== Sys2Proof/Machine/Flags.lean ====
section
/-! DEFINITION. Machine/Flags.lean: every update of `STATUS` the spec gives (spec/10_state.md rules
R12 to R15), and the word a host reads. -/

namespace Sys2Proof.Machine

/-- The error codes of rule R74. -/
inductive ErrCode where
  /-- No error. -/
  | none
  /-- The accepted word names no command (rule R40). -/
  | illegalCmd
  /-- The buffer runs past the top of the buffer space (rule R56). -/
  | range
  /-- A buffer read was answered with a bus error (rule R60). -/
  | busError
deriving DecidableEq, Repr

/-- The value of `STATUS.ECODE` for an error code (rule R74). -/
def ErrCode.code : ErrCode → BitVec 4
  | .none       => 0#4
  | .illegalCmd => 1#4
  | .range      => 2#4
  | .busError   => 3#4

/-- `STATUS` as a 32-bit word: BUSY, DONE, ERR and DROP in bits 0 to 3, ECODE in bits 7 to 4, and 0
in the reserved bits 31 to 8 (rule R12). -/
def Status.word (st : Status) : Word :=
  0#24 ++ st.ecode ++ BitVec.ofBool st.drop ++ BitVec.ofBool st.err ++ BitVec.ofBool st.done
    ++ BitVec.ofBool st.busy

/-- Acceptance of a command: BUSY is set, DONE, ERR and ECODE are cleared, DROP stays (rule R70). -/
def Status.onAccept (st : Status) : Status :=
  { st with busy := true, done := false, err := false, ecode := ErrCode.none.code }

/-- Completion with an outcome: BUSY is cleared, DONE is set, ERR and ECODE tell the outcome, DROP
stays (rules R72 and R73). -/
def Status.onComplete (st : Status) (e : ErrCode) : Status :=
  { st with busy := false, done := true, err := decide (e ≠ .none), ecode := e.code }

/-- A host write was dropped (rule R77). -/
def Status.onDrop (st : Status) : Status := { st with drop := true }

/-- A host write of `v` to `STATUS`: bit 3 set clears DROP, and nothing else changes (rules R14 and
R15). -/
def Status.onHostWrite (st : Status) (v : Word) : Status :=
  if v.getLsbD 3 then { st with drop := false } else st

end Sys2Proof.Machine
end

