-- ==== Sys2Proof/Machine/Ops.lean ====
section
/-! DEFINITION. Machine/Ops.lean: the named operations over memory, the buffer port, the register
window and the engine: reading and writing memory, `MemRead`, acceptance, the two completions,
reset, and reading and writing a register. -/

namespace Sys2Proof.Machine

/-! ### Memory -/

/-- The byte written at an address, if any. -/
def Memory.lookup : Memory → Nat → Option Byte
  | [], _ => none
  | (k, v) :: m, a => if k = a then some v else Memory.lookup m a

/-- Writes one byte and keeps the addresses rising. -/
def Memory.store : Memory → Nat → Byte → Memory
  | [], a, b => [(a, b)]
  | (k, v) :: m, a, b =>
    if a < k then (a, b) :: (k, v) :: m
    else if k = a then (a, b) :: m
    else (k, v) :: Memory.store m a b

/-- The byte an address of the buffer space holds: the one written there, or a draw that is fixed
once drawn (rule R87). -/
def State.byteAt (s : State) (a : Nat) : Byte :=
  (s.mem.lookup a).getD (Config.unwrittenByte a)

/-! ### The buffer port -/

/-- The entry of the platform's map for an address: the first region that lists it; an address in no
region is answered with a bus error. -/
def mapKind : List Region → Nat → BusKind
  | [], _ => .busError
  | r :: rs, a => if r.first ≤ a ∧ a ≤ r.last then r.kind else mapKind rs a

/-- How the platform answers a buffer read at an address. -/
def State.kindAt (s : State) (a : Nat) : BusKind := mapKind s.map a

/-- Rule R6's `MEM_OK(addr)`: a one-byte read at `addr` completes with data. -/
abbrev State.MemOk (s : State) (a : Nat) : Prop := s.kindAt a = .memory

/-- The buffer port performs a read at `a`: it joins the observer's list (rule R29). -/
def State.logRead (s : State) (a : Nat) : State := { s with reads := s.reads ++ [a] }

/-! ### The engine -/

/-- Acceptance of a command word: the engine latches it with OPA and OPB (rules R18 and R70). -/
def State.accept (s : State) (w : Word) : State :=
  { s with engine := .pending w s.opa s.opb, status := s.status.onAccept }

/-- Completion without error: RES takes the result and the engine returns to Idle, in one step
(rule R72). -/
def State.completeOk (s : State) (v : Word) : State :=
  { s with res := v, status := s.status.onComplete .none, engine := .idle }

/-- `raise Error(code)`: completion with an error, the block's one exception. RES is unchanged, no
other state is saved, and the engine returns to Idle, in one step (rules R73 and R81). There is no
return from it (rule R82). -/
def State.raiseError (s : State) (e : ErrCode) : State :=
  { s with status := s.status.onComplete e, engine := .idle }

/-- The engine moves on to another state of the running command. -/
def State.setEngine (s : State) (e : Engine) : State := { s with engine := e }

/-- The reset input is asserted: the block takes its reset values and a running command is abandoned
(rules R20, R85 and R86). The platform, the host and the observer are not the block's (rule R19). -/
def State.assertReset (s : State) : State :=
  { s with opa := 0x00000000#32, opb := 0x00000000#32, res := 0x00000000#32,
           status := Status.reset, engine := .idle }

/-! ### The register window -/

/-- The byte offset of a register (rule R7). -/
def Reg.offset : Reg → BitVec 5
  | .cmd    => 0x00#5
  | .status => 0x04#5
  | .opa    => 0x08#5
  | .opb    => 0x0C#5
  | .res    => 0x10#5

/-- The register at a byte offset; the offsets 0x14, 0x18 and 0x1C are reserved (rule R7). -/
def regAtOffset (off : BitVec 5) : Option Reg :=
  match off.toNat with
  | 0x00 => some .cmd
  | 0x04 => some .status
  | 0x08 => some .opa
  | 0x0C => some .opb
  | 0x10 => some .res
  | _    => none

/-- The bus address of a byte of the register window: `REG_BASE` is 32-byte aligned (rule R6). -/
def windowAddr (base : BitVec 27) (off : BitVec 5) : Word := base ++ off

/-- The offset of a bus address in the register window, if it lies there (rule R21). DESIGN CHOICE: the
first address of an access alone decides whether it is one to the window, whatever its width (log
entry 14). -/
def State.windowOffset (s : State) (addr : Word) : Option (BitVec 5) :=
  if addr.extractLsb' 5 27 = s.regBase then some (addr.extractLsb' 0 5) else none

/-- A host access is admitted when it is 32 bits wide at an offset that is a multiple of 4 (rules R22
and R23). -/
abbrev AdmittedAccess (off : BitVec 5) (size : AccessSize) : Prop :=
  size = .word ∧ off.toNat % 4 = 0

/-- A host write to OPA, OPB or CMD that came while BUSY = 1: its only effect is DROP (rule R77). -/
def State.dropWrite (s : State) : State := { s with status := s.status.onDrop }

/-- An admitted host write of `v` to the register at an offset (rules R8 to R11, R15, R24, R25, R70
and R77). -/
def State.writeReg (s : State) (off : BitVec 5) (v : Word) : State :=
  match regAtOffset off with
  | some .cmd    => if s.status.busy then s.dropWrite else s.accept v
  | some .status => { s with status := s.status.onHostWrite v }
  | some .opa    => if s.status.busy then s.dropWrite else { s with opa := v }
  | some .opb    => if s.status.busy then s.dropWrite else { s with opb := v }
  | some .res    => s
  | none         => s

/-- The value an admitted host read returns (rules R8 to R12 and R24). RES while BUSY = 1 is a free
value (rule R11; log entry 4). -/
def State.readReg (s : State) (off : BitVec 5) : Word :=
  match regAtOffset off with
  | some .cmd    => 0x00000000#32
  | some .status => s.status.word
  | some .opa    => s.opa
  | some .opb    => s.opb
  | some .res    => if s.status.busy then Config.busyRes s.draws else s.res
  | none         => 0x00000000#32

/-- MODEL'S OWN: the read of RES while BUSY = 1 used up one free value; no other read does. -/
def State.afterRead (s : State) (off : BitVec 5) : State :=
  if regAtOffset off = some .res ∧ s.status.busy = true then { s with draws := s.draws + 1 } else s

/-- The host's last access was answered so. -/
def State.setReply (s : State) (r : HostReply) : State := { s with reply := r }

end Sys2Proof.Machine
end

