-- ==== Sys2Proof/Machine/Operands.lean ====
section
/-! DEFINITION. Machine/Operands.lean: operand assembly (spec/30_encoding.md rule R41) and result
assembly (rule R42). A command reads the operands latched at acceptance (rule R18); operand bits
that a command does not list are ignored. -/

namespace Sys2Proof.Machine

/-- The latched OPA, called `a` in the spec's pseudocode. With no command latched it is OPA itself,
which the latched copy always equals (rule R18; log entry 9). -/
def State.operandA (s : State) : Word :=
  match s.engine with
  | .idle => s.opa
  | .pending _ a _ => a
  | .crc _ a _ _ _ => a

/-- The latched OPB, called `n` in the spec's pseudocode. -/
def State.operandN (s : State) : Word :=
  match s.engine with
  | .idle => s.opb
  | .pending _ _ n => n
  | .crc _ _ n _ _ => n

/-- `a[7:0]`: the byte of REVB. -/
def byteOperand (a : Word) : Byte := a.extractLsb' 0 8

/-- `a[15:0]`: the word of REVW, the length of HENC. -/
def halfOperand (a : Word) : Half := a.extractLsb' 0 16

/-- `n[2]`: HENC's mode-switch flag. -/
def msOperand (n : Word) : Bool := n.getLsbD 2
/-- `n[1]`: HENC's crc-enabled flag. -/
def ceOperand (n : Word) : Bool := n.getLsbD 1
/-- `n[0]`: HENC's whitening-enabled flag. -/
def dwOperand (n : Word) : Bool := n.getLsbD 0

/-- `a[7:0]`: header byte b0 of HDEC (rule R27). -/
def b0Operand (a : Word) : Byte := a.extractLsb' 0 8
/-- `a[15:8]`: header byte b1 of HDEC (rule R27). -/
def b1Operand (a : Word) : Byte := a.extractLsb' 8 8

/-- The header fields: the length field and the flags MS, CE and DW (rule R4). -/
structure Header where
  len : BitVec 11
  ms  : Bool
  ce  : Bool
  dw  : Bool
deriving DecidableEq, Repr

/-- RES of HENC: `cat(len, b1, b0)` (rule R65). -/
def packEncoded (len : Half) (b0 b1 : Byte) : Word := len ++ b1 ++ b0

/-- RES of HDEC: `cat(13 zero bits, MS, CE, DW, 5 zero bits, L)` (rule R66). -/
def packDecoded (h : Header) : Word :=
  0#13 ++ BitVec.ofBool h.ms ++ BitVec.ofBool h.ce ++ BitVec.ofBool h.dw ++ 0#5 ++ h.len

end Sys2Proof.Machine
end

