-- ==== Sys2Proof/Machine/BitReversal.lean ====
section
/-! DEFINITION. Machine/BitReversal.lean: the reversal functions and the commands REVB and REVW
(spec/40_bit_reversal.md). -/

namespace Sys2Proof.Machine

/-- `REV8` in the three masked swap stages of rule R45: nibbles, pairs, bits. -/
def rev8 (b : Byte) : Byte :=
  let t1 := ((b &&& 0xF0#8) >>> 4) ||| ((b &&& 0x0F#8) <<< 4)
  let t2 := ((t1 &&& 0xCC#8) >>> 2) ||| ((t1 &&& 0x33#8) <<< 2)
  ((t2 &&& 0xAA#8) >>> 1) ||| ((t2 &&& 0x55#8) <<< 1)

/-- `REV16`: each byte reversed, and the two bytes swapped (rule R46). -/
def rev16 (w : Half) : Half := rev8 (w.extractLsb' 0 8) ++ rev8 (w.extractLsb' 8 8)

/-- `REV11`, as `REV16(zext_16(x)) >> 5` (rule R47). -/
def rev11 (x : BitVec 11) : BitVec 11 := (rev16 (x.setWidth 16) >>> 5).setWidth 11

/-- `REVB` (rule R49): RES takes the reversed low byte of OPA. -/
def execRevb (s : State) : Host.Outcome State Fault Refusal :=
  .next (s.completeOk ((rev8 (byteOperand s.operandA)).setWidth 32))

/-- `REVW` (rule R50): RES takes the reversed low half of OPA. -/
def execRevw (s : State) : Host.Outcome State Fault Refusal :=
  .next (s.completeOk ((rev16 (halfOperand s.operandA)).setWidth 32))

end Sys2Proof.Machine
end

