-- ==== Sys2Proof/Machine/Crc.lean ====
section
/-! DEFINITION. Machine/Crc.lean: the CRC functions and the commands CRC16 and CRC32
(spec/41_crc.md). A CRC command takes several engine steps; each call of its meaning is one of them
(rule R59). -/

namespace Sys2Proof.Machine

/-! ### The CRC functions -/

/-- One shift of an MSB-first CRC register: the bit that leaves the top chooses whether the
polynomial is XORed in (rules R51, R52 and R62). -/
def crcShift {w : Nat} (poly c : BitVec w) : BitVec w :=
  if c.msb then (c <<< 1) ^^^ poly else c <<< 1

/-- `CRC16_BYTE` (rule R51). -/
def crc16Byte (c : Half) (b : Byte) : Half :=
  Nat.repeat (crcShift Config.poly16) 8 (c ^^^ (b.setWidth 16 <<< 8))

/-- `CRC32_BYTE` (rule R52). -/
def crc32Byte (c : Word) (b : Byte) : Word :=
  Nat.repeat (crcShift Config.poly32) 8 (c ^^^ (b.setWidth 32 <<< 24))

/-- `crc16_value` of a byte sequence (rule R53). -/
def crc16Value (d : List Byte) : Half := d.foldl crc16Byte Config.seed16 ^^^ Config.xorOut16

/-- A byte sequence padded with zero bytes to the least CRC-32 length (rule R54). -/
def padded (d : List Byte) : List Byte := d ++ List.replicate (Config.crc32MinLen - d.length) 0x00#8

/-- `crc32_value` of a byte sequence (rule R54). -/
def crc32Value (d : List Byte) : Word :=
  (padded d).foldl crc32Byte Config.seed32 ^^^ Config.xorOut32

/-! ### The two kinds of engine run -/

/-- The CRC register before the first byte (rule R59's SEED). -/
def CrcKind.seed : CrcKind → Word
  | .c16 => Config.seed16.setWidth 32
  | .c32 => Config.seed32

/-- How many bytes the run takes (rule R59's N): the pad bytes of a short CRC-32 count. -/
def CrcKind.total (k : CrcKind) (n : Nat) : Nat :=
  match k with
  | .c16 => n
  | .c32 => max n Config.crc32MinLen

/-- The update by one byte (rule R59's BYTE). A CRC-16 uses `c[15:0]` and leaves `c[31:16]` 0
(rule R17). -/
def CrcKind.update (k : CrcKind) (c : Word) (b : Byte) : Word :=
  match k with
  | .c16 => (crc16Byte (c.setWidth 16) b).setWidth 32
  | .c32 => crc32Byte c b

/-- What the finish step writes to RES (rule R59). -/
def CrcKind.finish (k : CrcKind) (c : Word) : Word :=
  match k with
  | .c16 => (c.setWidth 16 ^^^ Config.xorOut16).setWidth 32
  | .c32 => c ^^^ Config.xorOut32

/-- The command that runs a kind of CRC. -/
def CrcKind.instr : CrcKind → Instr
  | .c16 => .crc16
  | .c32 => .crc32

/-! ### Engine steps -/

/-- Rule R56's condition: the buffer runs past the top of the buffer space. It is computed exactly,
without wrap, on the real length. -/
abbrev OutOfRange (a n : Word) : Prop := a.toNat + n.toNat - 1 > 0xFFFFFFFF

/-- Rule R59's `start`: null or zero length first, then the range (rules R55, R56 and R78). -/
def crcStart (k : CrcKind) (a n : Word) (s : State) : State :=
  if a = 0#32 ∨ n = 0#32 then s.completeOk 0x00000000#32
  else if OutOfRange a n then s.raiseError .range
  else s.setEngine (.crc k a n 0#33 k.seed)

/-- Rule R59's `byte`: index `i` is read from the buffer if it lies within the real length, and is a
pad byte otherwise (rules R29, R60 and R61). A read never answered leaves the engine where it is
(rule R96), and a read with a side effect is refused (rule R32). -/
def crcByte (k : CrcKind) (a n : Word) (i : BitVec 33) (c : Word) (s : State) :
    Host.Outcome State Fault Refusal :=
  if i.toNat < n.toNat then
    match s.kindAt (a.toNat + i.toNat) with
    | .memory =>
      .next ((s.logRead (a.toNat + i.toNat)).setEngine
        (.crc k a n (i + 1#33) (k.update c (s.byteAt (a.toNat + i.toNat)))))
    | .busError => .next ((s.logRead (a.toNat + i.toNat)).raiseError .busError)
    | .silent => .next s
    | .sideEffect => .refused (.sideEffectBuffer (a.toNat + i.toNat))
  else .next (s.setEngine (.crc k a n (i + 1#33) (k.update c 0x00#8)))

/-- One engine step of a CRC command (rule R59): `byte` or `finish` when the CRC is in progress,
`start` otherwise. -/
def crcStep (k : CrcKind) (s : State) : Host.Outcome State Fault Refusal :=
  match s.engine with
  | .crc _ a n i c =>
    if i.toNat < k.total n.toNat then crcByte k a n i c s else .next (s.completeOk (k.finish c))
  | .pending _ a n => .next (crcStart k a n s)
  | .idle => .next (crcStart k s.opa s.opb s)

/-- `CRC16` (rule R57): its next engine step. -/
def execCrc16 (s : State) : Host.Outcome State Fault Refusal := crcStep .c16 s

/-- `CRC32` (rule R58): its next engine step. -/
def execCrc32 (s : State) : Host.Outcome State Fault Refusal := crcStep .c32 s

end Sys2Proof.Machine
end

