-- ==== Sys2Proof/Machine/PhyHeader.lean ====
section
/-! DEFINITION. Machine/PhyHeader.lean: the PHY header codec and the commands HENC and HDEC
(spec/42_phy_header.md). The reading of "the bit-reversed length" is an argument (rule R69); the
commands take this hardware's, `Config.phrHiOrder`. -/

namespace Sys2Proof.Machine

/-- The three bits of the length that go into `p0[2:0]`: `REV11(L)[2:0]`, or `L[10:8]` under the
alternative reading (rules R64 and R69). -/
def hiLengthBits (o : PhrHiOrder) (len : BitVec 11) : BitVec 3 :=
  match o with
  | .twice => (rev11 len).extractLsb' 0 3
  | .once  => len.extractLsb' 8 3

/-- Byte 0 as assembled before its final reversal, `p0`: MS at bit 7, CE at bit 4, DW at bit 3, ORed
with the three length bits (rule R64). -/
def assembleByte0 (o : PhrHiOrder) (h : Header) : Byte :=
  ((BitVec.ofBool h.ms).setWidth 8 <<< 7) ||| ((BitVec.ofBool h.ce).setWidth 8 <<< 4)
    ||| ((BitVec.ofBool h.dw).setWidth 8 <<< 3) ||| (hiLengthBits o h.len).setWidth 8

/-- `HDR_ENCODE`: the stored bytes (b0, b1) of a header (rule R64). Byte 0 is reversed again as a
block; byte 1 is the remaining eight bits of the bit-reversed length. -/
def encodeHeader (o : PhrHiOrder) (h : Header) : Byte × Byte :=
  (rev8 (assembleByte0 o h), (rev11 h.len >>> 3).setWidth 8)

/-- The length field from `p0` and b1 (rules R66 and R69). -/
def decodedLength (o : PhrHiOrder) (p0 b1 : Byte) : BitVec 11 :=
  match o with
  | .twice => rev11 (b1 ++ p0.extractLsb' 0 3)
  | .once  => p0.extractLsb' 0 3 ++ rev8 b1

/-- The header fields of two stored bytes: the inverse bit manipulation (rule R66). The reserved bits
`p0[6:5]` are ignored (rule R67). -/
def decodeHeader (o : PhrHiOrder) (b0 b1 : Byte) : Header where
  len := decodedLength o (rev8 b0) b1
  ms  := (rev8 b0).getLsbD 7
  ce  := (rev8 b0).getLsbD 4
  dw  := (rev8 b0).getLsbD 3

/-- The header that HENC's operands name: only `len[10:0]` reaches the field (rules R64 and R68). -/
def headerOperand (a n : Word) : Header where
  len := (halfOperand a).extractLsb' 0 11
  ms  := msOperand n
  ce  := ceOperand n
  dw  := dwOperand n

/-- RES of HENC for operands `a` and `n` (rule R65). -/
def hencResult (o : PhrHiOrder) (a n : Word) : Word :=
  packEncoded (halfOperand a) (encodeHeader o (headerOperand a n)).1
    (encodeHeader o (headerOperand a n)).2

/-- RES of HDEC for operand `a` (rule R66). -/
def hdecResult (o : PhrHiOrder) (a : Word) : Word :=
  packDecoded (decodeHeader o (b0Operand a) (b1Operand a))

/-- `HENC` (rule R65): RES takes the length and the two header bytes. -/
def execHenc (s : State) : Host.Outcome State Fault Refusal :=
  .next (s.completeOk (hencResult Config.phrHiOrder s.operandA s.operandN))

/-- `HDEC` (rule R66): RES takes the length field and the flags. -/
def execHdec (s : State) : Host.Outcome State Fault Refusal :=
  .next (s.completeOk (hdecResult Config.phrHiOrder s.operandA))

end Sys2Proof.Machine
end

