-- ==== Sys2Proof/Machine/Dispatch.lean ====
section
/-! DEFINITION. Machine/Dispatch.lean: from a command to its meaning, one arm per constructor. A call
is ONE engine step of the command (spec/60_exceptions.md rule R71): the whole of REVB, REVW, HENC and
HDEC, and the next step of a CRC (spec/41_crc.md rule R59). -/

namespace Sys2Proof.Machine

def exec (i : Instr) (s : State) : Host.Outcome State Fault Refusal :=
  match i with
  | .revb => Sys2Proof.Machine.execRevb s
  | .revw => Sys2Proof.Machine.execRevw s
  | .crc16 => Sys2Proof.Machine.execCrc16 s
  | .crc32 => Sys2Proof.Machine.execCrc32 s
  | .henc => Sys2Proof.Machine.execHenc s
  | .hdec => Sys2Proof.Machine.execHdec s

end Sys2Proof.Machine
end

