-- ==== Sys2Proof/Machine/Host.lean ====
section
/-! DEFINITION. Machine/Host.lean: one host step (spec/20_memory.md rules R21 to R27,
spec/30_encoding.md rule R43), and the host programs the spec's pseudo-instructions stand for
(rule R44). -/

namespace Sys2Proof.Machine

/-! ### One host access -/

/-- A host write on the bus. In the window an admitted access writes its register, and any other is
answered with a bus error and changes nothing (rules R22 and R23). DESIGN CHOICE: an access that
starts below the window and runs into it is `notSelected` (log entry 14). -/
def State.hostWrite (s : State) (addr : Word) (size : AccessSize) (v : Word) : State :=
  match s.windowOffset addr with
  | none => s.setReply .notSelected
  | some off =>
    if AdmittedAccess off size then (s.writeReg off v).setReply .ack else s.setReply .busError

/-- A host read on the bus; no host read of any register has a side effect (rule R25). DESIGN CHOICE: an
access that starts below the window and runs into it is `notSelected` (log entry 14). -/
def State.hostRead (s : State) (addr : Word) (size : AccessSize) : State :=
  match s.windowOffset addr with
  | none => s.setReply .notSelected
  | some off =>
    if AdmittedAccess off size then (s.afterRead off).setReply (.data (s.readReg off))
    else s.setReply .busError

/-- One byte store of the host to the platform's memory. A byte access inside the register window is
a narrow access (rule R23). -/
def State.hostStore (s : State) (addr : Nat) (b : Byte) : State :=
  match s.windowOffset (BitVec.ofNat 32 addr) with
  | none => { s with mem := s.mem.store addr b }
  | some _ => s.setReply .busError

/-- The host has these statements still to execute. -/
def State.setHost (s : State) (p : List HostStmt) : State := { s with host := p }

/-- One host step: the next access of its program. `poll` stays until the STATUS it read has
`BUSY = 0`; `mem` stores one byte a step. A host with no program left does nothing. DESIGN CHOICE: a
`mem` with no byte left takes one host turn with no access, which retires it (log entry 17). -/
def hostStep (s : State) : Host.Outcome State Fault Refusal :=
  match s.host with
  | [] => .next s
  | .write addr size v :: rest => .next ((s.setHost rest).hostWrite addr size v)
  | .read addr size :: rest => .next ((s.setHost rest).hostRead addr size)
  | .poll :: rest =>
    .next ((s.setHost (if s.status.busy then .poll :: rest else rest)).setReply
      (.data s.status.word))
  | .mem _ [] :: rest => .next (s.setHost rest)
  | .mem addr (b :: bs) :: rest =>
    if addr < spaceSize then .next ((s.setHost (.mem (addr + 1) bs :: rest)).hostStore addr b)
    else .fault (.outsideBufferSpace addr)

/-! ### Host programs -/

/-- `wr REG, imm` (rule R43). -/
def wr (base : BitVec 27) (r : Reg) (imm : Word) : HostStmt :=
  .write (windowAddr base r.offset) .word imm

/-- `rd REG` (rule R43). -/
def rd (base : BitVec 27) (r : Reg) : HostStmt := .read (windowAddr base r.offset) .word

/-- `revb v` (rule R44). -/
def revbProgram (base : BitVec 27) (v : Word) : List HostStmt :=
  [wr base .opa v, wr base .cmd (encode .revb), .poll]

/-- `revw v` (rule R44). -/
def revwProgram (base : BitVec 27) (v : Word) : List HostStmt :=
  [wr base .opa v, wr base .cmd (encode .revw), .poll]

/-- `crc16 addr, len` (rule R44). -/
def crc16Program (base : BitVec 27) (addr len : Word) : List HostStmt :=
  [wr base .opa addr, wr base .opb len, wr base .cmd (encode .crc16), .poll]

/-- `crc32 addr, len` (rule R44). -/
def crc32Program (base : BitVec 27) (addr len : Word) : List HostStmt :=
  [wr base .opa addr, wr base .opb len, wr base .cmd (encode .crc32), .poll]

/-- OPB of `henc`: `(ms << 2) | (ce << 1) | dw` (rule R44). -/
def flagWord (ms ce dw : Bool) : Word :=
  ((BitVec.ofBool ms).setWidth 32 <<< 2) ||| ((BitVec.ofBool ce).setWidth 32 <<< 1)
    ||| (BitVec.ofBool dw).setWidth 32

/-- `henc len, ms, ce, dw` (rule R44). -/
def hencProgram (base : BitVec 27) (len : Word) (ms ce dw : Bool) : List HostStmt :=
  [wr base .opa len, wr base .opb (flagWord ms ce dw), wr base .cmd (encode .henc), .poll]

/-- `hdec hdr` (rule R44). -/
def hdecProgram (base : BitVec 27) (hdr : Word) : List HostStmt :=
  [wr base .opa hdr, wr base .cmd (encode .hdec), .poll]

/-- A little-endian 16-bit host store of a register's low half (rules R26 and R27). -/
def storeHalf (addr : Nat) (v : Word) : HostStmt := .mem addr [byteLane v 0, byteLane v 1]

/-- A little-endian 16-bit host load (rule R27). DESIGN CHOICE: at 0xFFFFFFFF its second byte, which the
buffer space does not have, is the free value of an unwritten byte (log entry 15); and a byte of it at
an address of the register window is the buffer space's byte there (log entry 16). -/
def State.loadHalf (s : State) (addr : Nat) : Half := s.byteAt (addr + 1) ++ s.byteAt addr

end Sys2Proof.Machine
end

