-- ==== Sys2Proof/Machine/Engine.lean ====
section
/-! DEFINITION. Machine/Engine.lean: one engine step (spec/60_exceptions.md rule R71), and one step of
the system: a host access, an engine step or a reset (rules R79 and R85). -/

namespace Sys2Proof.Machine

/-- One engine step. An idle engine has no move; an accepted word that decodes to no command
completes with `ILLEGAL_CMD` (rules R40 and R71). -/
def engineStep (s : State) : Host.Outcome State Fault Refusal :=
  match s.engine with
  | .idle => .next s
  | .pending w _ _ =>
    match decodeWord w with
    | .ok i => exec i s
    | .error _ => .next (s.raiseError .illegalCmd)
  | .crc k _ _ _ _ => exec k.instr s

/-- Who moves: the next turn of the schedule. With no turn left, a busy engine moves before the host
(rule R96; log entry 5). -/
def State.mover (s : State) : Turn :=
  match s.sched with
  | t :: _ => t
  | [] =>
    match s.engine with
    | .idle => .host
    | .pending _ _ _ => .engine
    | .crc _ _ _ _ _ => .engine

/-- The turn that is being taken leaves the schedule. -/
def State.popTurn (s : State) : State := { s with sched := s.sched.tail }

/-- One step of the system (rules R79 and R85). -/
def systemStep (s : State) : Host.Outcome State Fault Refusal :=
  match s.mover with
  | .host => hostStep s.popTurn
  | .engine => engineStep s.popTurn
  | .reset => .next s.popTurn.assertReset

/-- A command word placed as if the host had just written it to CMD: accepted, with OPA and OPB
latched, and the engine's turn next (log entry 1). -/
def State.placeCommand (s : State) (w : Word) : State :=
  { s.accept w with sched := if s.sched = [] then [] else .engine :: s.sched }

end Sys2Proof.Machine
end

