-- ==== Sys2Proof/Machine/Step.lean ====
section
/-! DEFINITION. Machine/Step.lean: the step of the machine, and the state in which the next step
takes a given command. -/

namespace Sys2Proof.Machine

/-- One step: a host access, an engine step or a reset (rules R79 and R85). -/
def step (s : State) : Host.Outcome State Fault Refusal := systemStep s

/-- `s` with the command word whose low `nbits` bits are `w` just accepted, so that the next step is
the engine's and takes exactly it (log entry 1). -/
def State.withFetchWord (s : State) (nbits w : Nat) : State := s.placeCommand (tableWord nbits w)

end Sys2Proof.Machine
end

