-- ==== Sys2Proof/Safety.lean ====
section
/-! DEFINITION. Safety.lean: the notions the statements are made of: a run, the invariant of the
machine, the buffer a CRC covers, and how far a CRC has come. -/

namespace Sys2Proof.Machine

/-! ### Runs -/

/-- `k` steps of the machine, stopping at the first fault or refusal. -/
def runSteps : Nat → State → Host.Outcome State Fault Refusal
  | 0, s => .next s
  | k + 1, s =>
    match step s with
    | .next t => runSteps k t
    | .fault f => .fault f
    | .refused r => .refused r

/-- The state of an outcome that is a next state. -/
def nextState? : Host.Outcome State Fault Refusal → Option State
  | .next t => some t
  | .fault _ => none
  | .refused _ => none

/-- The host's program stores only at addresses of the buffer space (rule R21). -/
def HostStmt.InSpace : HostStmt → Prop
  | .mem addr bytes => addr + bytes.length ≤ spaceSize
  | .write _ _ _ => True
  | .read _ _ => True
  | .poll => True

/-- No buffer address has reads with a side effect: rule R32's premise of every claim. -/
abbrev State.NoSideEffects (s : State) : Prop := ∀ a, s.kindAt a ≠ .sideEffect

/-! ### The invariant -/

/-- `Idle` holds exactly when `STATUS.BUSY = 0` (rule R17). -/
def State.BusyAgrees (s : State) : Prop := s.status.busy = false ↔ s.engine = .idle

/-- What rules R12, R14 and R74 say of a STATUS value: a busy block shows no outcome, `ECODE` is 0
when `ERR = 0`, and an error has one of the codes 1 to 3 and is shown with `DONE`. -/
def Status.Legal (st : Status) : Prop :=
  (st.busy = true → st.done = false ∧ st.err = false) ∧
  (st.err = false → st.ecode = 0#4) ∧
  (st.err = true → st.done = true ∧ (st.ecode = 1#4 ∨ st.ecode = 2#4 ∨ st.ecode = 3#4))

/-- The latched operands equal the registers while a command runs (rule R18). -/
def State.OperandsLatched (s : State) : Prop :=
  match s.engine with
  | .idle => True
  | .pending _ a n => a = s.opa ∧ n = s.opb
  | .crc _ a n _ _ => a = s.opa ∧ n = s.opb

/-- What holds of a CRC in progress: it is past the checks of rules R55 and R56, its index is at most
its total, and a CRC-16 leaves `c[31:16]` 0 (rule R17). -/
def State.CrcInRange (s : State) : Prop :=
  match s.engine with
  | .idle => True
  | .pending _ _ _ => True
  | .crc k a n i c =>
    a ≠ 0#32 ∧ n ≠ 0#32 ∧ ¬ OutOfRange a n ∧ i.toNat ≤ k.total n.toNat ∧
      (k = .c16 → c.extractLsb' 16 16 = 0#16)

/-- The invariant of the machine. -/
structure State.Inv (s : State) : Prop where
  busyAgrees      : s.BusyAgrees
  statusLegal     : s.status.Legal
  operandsLatched : s.OperandsLatched
  crcInRange      : s.CrcInRange
  memory          : Memory.WellFormed s.mem

/-! ### Buffers and CRC progress -/

/-- The `n` bytes of the buffer at `a`, in increasing address order (rule R28). -/
def State.buffer (s : State) (a n : Nat) : List Byte :=
  (List.range n).map fun j => s.byteAt (a + j)

/-- The `n` addresses of the buffer at `a`, in increasing order (rule R29). -/
def bufferAddrs (a n : Nat) : List Nat := (List.range n).map fun j => a + j

/-- The value a CRC command writes to RES for a byte sequence (rules R57 and R58). -/
def CrcKind.value (k : CrcKind) (d : List Byte) : Word :=
  match k with
  | .c16 => (crc16Value d).setWidth 32
  | .c32 => crc32Value d

/-- The byte a CRC run takes at an index: a buffer byte within the real length, a zero pad byte
beyond it (rule R54). -/
def State.runByte (s : State) (a n j : Nat) : Byte :=
  if j < n then s.byteAt (a + j) else 0x00#8

/-- The CRC register holds the fold of the bytes taken so far, as the buffer stands now. -/
def State.CrcProgress (s : State) : Prop :=
  match s.engine with
  | .idle => True
  | .pending _ _ _ => True
  | .crc k a n i c =>
    c = ((List.range i.toNat).map (s.runByte a.toNat n.toNat)).foldl k.update k.seed

/-- The bytes that the running command covers are the same in `s` and `t` (rule R90). -/
def State.BufferKept (s t : State) : Prop :=
  ∀ j < s.operandN.toNat, t.byteAt (s.operandA.toNat + j) = s.byteAt (s.operandA.toNat + j)

/-- Every byte that the running command covers is answered, with data or with a bus error
(rule R96). -/
def State.BufferAnswered (s : State) : Prop :=
  ∀ j < s.operandN.toNat, s.kindAt (s.operandA.toNat + j) = .memory ∨
    s.kindAt (s.operandA.toNat + j) = .busError

/-- An upper bound on the engine steps a running command still takes (rule R59). -/
def State.stepsLeft (s : State) : Nat :=
  match s.engine with
  | .idle => 0
  | .pending _ _ n => max n.toNat Config.crc32MinLen + 2
  | .crc k _ n i _ => k.total n.toNat - i.toNat + 1

/-- All that the block, the platform and the observer hold besides the engine, `RES`, `STATUS` and
the list of reads is the same in `s` and `t`: what no engine step changes. -/
structure SameOutsideEngine (s t : State) : Prop where
  opa     : t.opa = s.opa
  opb     : t.opb = s.opb
  drop    : t.status.drop = s.status.drop
  mem     : t.mem = s.mem
  map     : t.map = s.map
  regBase : t.regBase = s.regBase
  host    : t.host = s.host
  sched   : t.sched = s.sched
  reply   : t.reply = s.reply
  draws   : t.draws = s.draws

end Sys2Proof.Machine
end

