-- ==== Sys2Proof/Certificates/Slice0/Obligations.lean ====
section
/-! DEFINITION. Certificates/Slice0/Obligations.lean: the statements for the provers, taken from the
spec's numbered rules. Each docstring names the rules. `s.mover` is who moves in the step from `s`;
a state with an empty `sched` in which the engine is busy is one where the engine moves. The fields
`host`, `sched`, `reply`, `reads` and `draws` are the model's devices (log entries 4 to 7): what a
statement says of them beyond the rule it cites is the model's. -/

open Sys2Proof
open Sys2Proof.Machine

/-! ### Decoding -/

/-- Rule R39: the legal command words are exactly the six of the opcode map, each the word of its own
command, and the decoder rejects every other word. -/
def Obligations.DecoderAcceptsExactlySixWords : Prop :=
  (∀ w : Word, LegalCommand w ↔ ∃ i, decodeWord w = .ok i) ∧
  (∀ (w : Word) (i : Instr), decodeWord w = .ok i ↔ w = encode i)

/-- A few command words written out from rule R39's table, as bytes on the little-endian port
(rule R26), and words that rule R40 calls illegal. -/
def Obligations.WrittenWordsDecode : Prop :=
  decodeBytes [0x01#8, 0x00#8, 0x00#8, 0x00#8] = .ok (.revb, []) ∧
  decodeBytes [0x02#8, 0x00#8, 0x00#8, 0x00#8] = .ok (.revw, []) ∧
  decodeBytes [0x03#8, 0x00#8, 0x00#8, 0x00#8] = .ok (.crc16, []) ∧
  decodeBytes [0x04#8, 0x00#8, 0x00#8, 0x00#8] = .ok (.crc32, []) ∧
  decodeBytes [0x05#8, 0x00#8, 0x00#8, 0x00#8] = .ok (.henc, []) ∧
  decodeBytes [0x06#8, 0x00#8, 0x00#8, 0x00#8] = .ok (.hdec, []) ∧
  decodeBytes [0x00#8, 0x00#8, 0x00#8, 0x00#8] = .error .reservedOp ∧
  decodeBytes [0x07#8, 0x00#8, 0x00#8, 0x00#8] = .error .reservedOp ∧
  decodeBytes [0x13#8, 0x00#8, 0x00#8, 0x00#8] = .error .reservedBits ∧
  decodeBytes [0x01#8, 0x00#8, 0x00#8, 0x80#8] = .error .reservedBits

/-- Decode after encode gives the command back on bytes, with whatever follows them, and four bytes that
decode to a command are its encoding. -/
def Obligations.DecodeEncodeAgree : Prop :=
  (∀ (i : Instr) (rest : List Byte), decodeBytes (encodeBytes i ++ rest) = .ok (i, rest)) ∧
  (∀ (x0 x1 x2 x3 : Byte) (rest : List Byte) (i : Instr),
    decodeBytes (x0 :: x1 :: x2 :: x3 :: rest) = .ok (i, rest) →
      [x0, x1, x2, x3] = encodeBytes i)

/-! ### The step and the order of moves -/

/-- A step runs the decoded instruction: when the engine moves and holds an accepted word that decodes
to `i`, the step is `exec i`, and while a CRC runs the step is `exec` of that CRC. Around `exec` the
step takes only the turn off the schedule. -/
def Obligations.StepRunsDecodedCommand : Prop :=
  (∀ (s : State) (w a n : Word) (i : Instr), s.mover = .engine → s.engine = .pending w a n →
    decodeWord w = .ok i → step s = exec i { s with sched := s.sched.tail }) ∧
  (∀ (s : State) (k : CrcKind) (a n c : Word) (i : BitVec 33), s.mover = .engine →
    s.engine = .crc k a n i c →
    step s = exec (match k with | .c16 => .crc16 | .c32 => .crc32) { s with sched := s.sched.tail })

/-- Rule R79: a step is one host access, one engine step or (rule R85) a reset, whichever the schedule
names, so every order is admitted; and a host CMD write near the end of a running command is dropped
before the completing engine step and accepted after it. That the order is a field of the state is
the model's choice (log entry 5). -/
def Obligations.EveryOrderOfMovesIsAdmitted : Prop :=
  (∀ (s : State) (rest : List Turn), s.sched = .host :: rest →
    step s = hostStep { s with sched := rest }) ∧
  (∀ (s : State) (rest : List Turn), s.sched = .engine :: rest →
    step s = engineStep { s with sched := rest }) ∧
  (∀ (s : State) (rest : List Turn), s.sched = .reset :: rest →
    step s = .next (State.assertReset { s with sched := rest })) ∧
  (∀ (s : State) (k : CrcKind) (a n c w : Word) (i : BitVec 33) (p : List HostStmt) (q : List Turn),
    s.engine = .crc k a n i c → i.toNat = k.total n.toNat → s.status.busy = true →
    s.host = wr s.regBase .cmd w :: p →
    (s.sched = .host :: .engine :: q →
      runSteps 2 s = .next { s with
        res := k.finish c, status := ⟨false, true, false, true, 0#4⟩, engine := .idle,
        host := p, sched := q, reply := .ack }) ∧
    (s.sched = .engine :: .host :: q →
      runSteps 2 s = .next { s with
        res := k.finish c, status := ⟨true, false, false, s.status.drop, 0#4⟩,
        engine := .pending w s.opa s.opb, host := p, sched := q, reply := .ack }))

/-! ### Bit reversal -/

/-- Rule R45: the three masked swap stages of `REV8` reverse the bit order of a byte. -/
def Obligations.Rev8ReversesBits : Prop :=
  ∀ (b : Byte) (i : Nat), i < 8 → (rev8 b).getLsbD i = b.getLsbD (7 - i)

/-- Rule R46: `REV16` reverses each byte and swaps the bytes, which reverses the 16 bits. -/
def Obligations.Rev16ReversesBits : Prop :=
  (∀ w : Half, rev16 w = rev8 (w.extractLsb' 0 8) ++ rev8 (w.extractLsb' 8 8)) ∧
  (∀ (w : Half) (i : Nat), i < 16 → (rev16 w).getLsbD i = w.getLsbD (15 - i))

/-- Rule R47: `REV11` reverses the bit order of an 11-bit value, and is `REV16(zext_16(x)) >> 5`. -/
def Obligations.Rev11ReversesBits : Prop :=
  (∀ (x : BitVec 11) (i : Nat), i < 11 → (rev11 x).getLsbD i = x.getLsbD (10 - i)) ∧
  (∀ x : BitVec 11, (rev11 x).setWidth 16 = rev16 (x.setWidth 16) >>> 5)

/-- Rule R48: each reversal is its own inverse. -/
def Obligations.ReversalsAreInvolutions : Prop :=
  (∀ b : Byte, rev8 (rev8 b) = b) ∧ (∀ w : Half, rev16 (rev16 w) = w) ∧
  (∀ x : BitVec 11, rev11 (rev11 x) = x)

/-- Rule R49: `REVB`. From the state that holds it accepted, one engine step writes the reversed low
byte of `a`, zero-extended, to RES, completes without error, and leaves everything else as it was. -/
def Obligations.RevbWritesReversedByte : Prop :=
  decodeWord 0x00000001#32 = .ok .revb ∧
  ∀ (s : State) (w a n : Word), s.engine = .pending w a n →
    exec .revb s = .next { s with
      res := (rev8 (a.extractLsb' 0 8)).setWidth 32
      status := ⟨false, true, false, s.status.drop, 0#4⟩
      engine := .idle }

/-- Rule R50: `REVW`, the same for the low 16 bits of `a`. -/
def Obligations.RevwWritesReversedHalf : Prop :=
  decodeWord 0x00000002#32 = .ok .revw ∧
  ∀ (s : State) (w a n : Word), s.engine = .pending w a n →
    exec .revw s = .next { s with
      res := (rev16 (a.extractLsb' 0 16)).setWidth 32
      status := ⟨false, true, false, s.status.drop, 0#4⟩
      engine := .idle }

/-! ### The PHY header codec -/

/-- Rules R63 and R64: the construction of the two header bytes from the 11-bit field of a length and
the flags; the stored layout it gives; and the byte assembled before the final reversal. -/
def Obligations.HeaderConstructionGivesStoredLayout : Prop :=
  ∀ (len : Half) (ms ce dw : Bool),
    let l := len.extractLsb' 0 11
    let r := rev11 l
    let p0 := ((BitVec.ofBool ms).setWidth 8 <<< 7) ||| ((BitVec.ofBool ce).setWidth 8 <<< 4)
      ||| ((BitVec.ofBool dw).setWidth 8 <<< 3) ||| (r &&& 0x07#11).setWidth 8
    encodeHeader .twice ⟨l, ms, ce, dw⟩ = (rev8 p0, ((r >>> 3) &&& 0xFF#11).setWidth 8) ∧
    encodeHeader .twice ⟨l, ms, ce, dw⟩ =
      (l.extractLsb' 8 3 ++ BitVec.ofBool dw ++ BitVec.ofBool ce ++ 0#2 ++ BitVec.ofBool ms,
        rev8 (l.extractLsb' 0 8)) ∧
    p0 = BitVec.ofBool ms ++ 0#2 ++ BitVec.ofBool ce ++ BitVec.ofBool dw
      ++ BitVec.ofBool (l.getLsbD 8) ++ BitVec.ofBool (l.getLsbD 9) ++ BitVec.ofBool (l.getLsbD 10)

/-- Rule R65: `HENC`. RES takes `cat(a[15:0], b1, b0)` for the header of length `a[10:0]` and flags
`n[2]`, `n[1]`, `n[0]`, whatever the length; everything else is as for a completion without error. -/
def Obligations.HencWritesHeader : Prop :=
  decodeWord 0x00000005#32 = .ok .henc ∧
  ∀ (s : State) (w a n : Word), s.engine = .pending w a n →
    exec .henc s = .next { s with
      res := a.extractLsb' 0 16
        ++ (encodeHeader .twice ⟨a.extractLsb' 0 11, n.getLsbD 2, n.getLsbD 1, n.getLsbD 0⟩).2
        ++ (encodeHeader .twice ⟨a.extractLsb' 0 11, n.getLsbD 2, n.getLsbD 1, n.getLsbD 0⟩).1
      status := ⟨false, true, false, s.status.drop, 0#4⟩
      engine := .idle }

/-- Rule R66: `HDEC`, in the rule's closed form: `L = cat(b0[7:5], REV8(b1))`, `MS = b0[0]`,
`CE = b0[3]`, `DW = b0[4]`, packed into RES. -/
def Obligations.HdecReadsHeader : Prop :=
  decodeWord 0x00000006#32 = .ok .hdec ∧
  ∀ (s : State) (w a n : Word), s.engine = .pending w a n →
    exec .hdec s = .next { s with
      res := 0#13 ++ BitVec.ofBool (a.getLsbD 0) ++ BitVec.ofBool (a.getLsbD 3)
        ++ BitVec.ofBool (a.getLsbD 4) ++ 0#5 ++ a.extractLsb' 5 3 ++ rev8 (a.extractLsb' 8 8)
      status := ⟨false, true, false, s.status.drop, 0#4⟩
      engine := .idle }

/-- Rule R67: the two bits that carry no field are written 0 and ignored. -/
def Obligations.ReservedHeaderBits : Prop :=
  (∀ (o : PhrHiOrder) (h : Header), (encodeHeader o h).1.extractLsb' 1 2 = 0#2) ∧
  (∀ (o : PhrHiOrder) (b0 b0' b1 : Byte),
    (∀ i < 8, i ≠ 1 → i ≠ 2 → b0.getLsbD i = b0'.getLsbD i) →
      decodeHeader o b0 b1 = decodeHeader o b0' b1)

/-- Rule R68: bits 15 to 11 of the length never reach the header or a flag, and RES still echoes all
16 bits of the length. -/
def Obligations.LongLengthsKeepToTheirField : Prop :=
  (∀ a a' n : Word, a.extractLsb' 0 11 = a'.extractLsb' 0 11 →
    (hencResult .twice a n).extractLsb' 0 16 = (hencResult .twice a' n).extractLsb' 0 16) ∧
  (∀ a n : Word, (hencResult .twice a n).extractLsb' 16 16 = a.extractLsb' 0 16)

/-- Rule R69: HDEC undoes HENC, for every length field and every flag, in both readings of "the
bit-reversed length"; the readings give the same b1, the same b0[4:0] and, exactly for the lengths
with `L[10] = L[8]`, the same b0; the other lengths are 1024 of the 2048. -/
def Obligations.HeaderRoundTrip : Prop :=
  (∀ (s t : State) (w w' a n n' : Word),
    s.engine = .pending w a n → exec .henc s = .next t →
    ∀ s' : State, s'.engine = .pending w' t.res n' →
      ∃ t', exec .hdec s' = .next t' ∧ t'.res.extractLsb' 0 11 = a.extractLsb' 0 11 ∧
        t'.res.extractLsb' 16 3 = n.extractLsb' 0 3) ∧
  (∀ (o : PhrHiOrder) (h : Header), decodeHeader o (encodeHeader o h).1 (encodeHeader o h).2 = h) ∧
  (∀ h : Header, (encodeHeader .once h).2 = (encodeHeader .twice h).2 ∧
    (encodeHeader .once h).1.extractLsb' 0 5 = (encodeHeader .twice h).1.extractLsb' 0 5 ∧
    ((encodeHeader .once h).1.getLsbD 5 = h.len.getLsbD 10 ∧
      (encodeHeader .once h).1.getLsbD 6 = h.len.getLsbD 9 ∧
      (encodeHeader .once h).1.getLsbD 7 = h.len.getLsbD 8) ∧
    ((encodeHeader .once h).1 = (encodeHeader .twice h).1 ↔
      h.len.getLsbD 10 = h.len.getLsbD 8)) ∧
  ((List.range 2048).filter fun l => l.testBit 10 != l.testBit 8).length = 1024

/-! ### The CRC functions -/

/-- A law rule R62 derives: CRC-16 is linear over GF(2). -/
def Obligations.Crc16IsLinear : Prop :=
  ∀ d e : List Byte, d.length = e.length →
    crc16Value (List.zipWith (fun x y => x ^^^ y) d e) = crc16Value d ^^^ crc16Value e

/-- A law rule R62 derives: appending the CRC-16 of a sequence, high byte first, gives 0. -/
def Obligations.Crc16Residue : Prop :=
  ∀ d : List Byte,
    crc16Value (d ++ [(crc16Value d).extractLsb' 8 8, (crc16Value d).extractLsb' 0 8]) = 0#16

/-- A corner case of rule R57: leading zero bytes do not change the CRC-16. -/
def Obligations.Crc16IgnoresLeadingZeros : Prop :=
  ∀ (k : Nat) (d : List Byte), crc16Value (List.replicate k 0x00#8 ++ d) = crc16Value d

/-- Rules R51 and R52: the byte is XORed into the top of the register, which is then shifted left
eight times; each bit shifted out chooses whether the polynomial is XORed in. -/
def Obligations.CrcByteUpdates : Prop :=
  (∀ (c : Half) (b : Byte), crc16Byte c b =
    (fun x : Half => if x.getLsbD 15 = true then (x <<< 1) ^^^ 0x1021#16 else x <<< 1)^[8]
      (c ^^^ (b.setWidth 16 <<< 8))) ∧
  (∀ (c : Word) (b : Byte), crc32Byte c b =
    (fun x : Word => if x.getLsbD 31 = true then (x <<< 1) ^^^ 0x04C11DB7#32 else x <<< 1)^[8]
      (c ^^^ (b.setWidth 32 <<< 24)))

/-- Rules R53 and R54: the CRC-16 of a sequence is the fold from seed 0 with no final XOR; for CRC-32
one to three bytes count as four with zeros behind them, and four or more are folded as they are,
from the seed 0xFFFFFFFF, with the final complement. -/
def Obligations.CrcValuesOfSequences : Prop :=
  (∀ d : List Byte, crc16Value d = d.foldl crc16Byte 0x0000#16) ∧
  (∀ d : List Byte, 1 ≤ d.length → d.length < 4 →
    crc32Value d = crc32Value (d ++ List.replicate (4 - d.length) 0x00#8)) ∧
  (∀ d : List Byte, 4 ≤ d.length →
    crc32Value d = d.foldl crc32Byte 0xFFFFFFFF#32 ^^^ 0xFFFFFFFF#32)

/-! ### The CRC commands -/

/-- Rule R55: a null address or a zero length completes without error with RES = 0 and reads
nothing, for both CRC commands. -/
def Obligations.NullOrEmptyCrcGivesZero : Prop :=
  ∀ (i : Instr) (s : State) (w a n : Word), i = .crc16 ∨ i = .crc32 →
    s.engine = .pending w a n → (a = 0#32 ∨ n = 0#32) →
    exec i s = .next { s with
      res := 0x00000000#32
      status := ⟨false, true, false, s.status.drop, 0#4⟩
      engine := .idle }

/-- Rule R56: a buffer that runs past the top of the buffer space completes with RANGE, reads nothing
and leaves RES alone, for both CRC commands; the real length decides, never the padded one. -/
def Obligations.RangeErrorBeforeReading : Prop :=
  ∀ (i : Instr) (s : State) (w a n : Word), i = .crc16 ∨ i = .crc32 →
    s.engine = .pending w a n → a ≠ 0#32 → n ≠ 0#32 →
    (a.toNat + n.toNat - 1 > 0xFFFFFFFF →
      exec i s = .next { s with
        status := ⟨false, true, true, s.status.drop, 2#4⟩
        engine := .idle }) ∧
    (a.toNat + n.toNat - 1 ≤ 0xFFFFFFFF →
      ∃ t, exec i s = .next t ∧ t.engine ≠ .idle ∧ t.status = s.status)

/-- Rule R60: a buffer read answered with a bus error completes the command at once with BUS_ERROR,
for both CRC commands: RES stays, the failing read is the last one. -/
def Obligations.BusErrorEndsCrcAtOnce : Prop :=
  ∀ (s : State) (k : CrcKind) (a n c : Word) (i : BitVec 33), s.engine = .crc k a n i c →
    i.toNat < n.toNat → s.kindAt (a.toNat + i.toNat) = .busError →
    exec (match k with | .c16 => .crc16 | .c32 => .crc32) s = .next { s with
      status := ⟨false, true, true, s.status.drop, 3#4⟩
      engine := .idle
      reads := s.reads ++ [a.toNat + i.toNat] }

/-- Rule R59 for CRC16: its `start`, `byte` and `finish` steps. The rule's finish is at `i = n`; that an
index above the total, which no run reaches (rule R17), finishes too is the model's choice (log
entry 9). -/
def Obligations.Crc16EngineSteps : Prop :=
  (∀ (s : State) (w a n : Word), s.engine = .pending w a n → a ≠ 0#32 → n ≠ 0#32 →
    a.toNat + n.toNat - 1 ≤ 0xFFFFFFFF →
    exec .crc16 s = .next { s with engine := .crc .c16 a n 0#33 0x00000000#32 }) ∧
  (∀ (s : State) (a n c : Word) (i : BitVec 33), s.engine = .crc .c16 a n i c →
    (i.toNat < n.toNat → s.MemOk (a.toNat + i.toNat) →
      exec .crc16 s = .next { s with
        engine := .crc .c16 a n (i + 1#33)
          ((crc16Byte (c.setWidth 16) (s.byteAt (a.toNat + i.toNat))).setWidth 32)
        reads := s.reads ++ [a.toNat + i.toNat] }) ∧
    (n.toNat ≤ i.toNat →
      exec .crc16 s = .next { s with
        res := (c.extractLsb' 0 16).setWidth 32
        status := ⟨false, true, false, s.status.drop, 0#4⟩
        engine := .idle }))

/-- Rules R59 and R61 for CRC32: its `start`, `byte` and `finish` steps. The pad bytes are 0x00 and
are never read, so what the platform would answer for them does not matter. The rule's finish is at
`i = max(n, 4)`; that an index above it, which no run reaches (rule R17), finishes too is the model's
choice (log entry 9). -/
def Obligations.Crc32EngineSteps : Prop :=
  (∀ (s : State) (w a n : Word), s.engine = .pending w a n → a ≠ 0#32 → n ≠ 0#32 →
    a.toNat + n.toNat - 1 ≤ 0xFFFFFFFF →
    exec .crc32 s = .next { s with engine := .crc .c32 a n 0#33 0xFFFFFFFF#32 }) ∧
  (∀ (s : State) (a n c : Word) (i : BitVec 33), s.engine = .crc .c32 a n i c →
    (i.toNat < n.toNat → s.MemOk (a.toNat + i.toNat) →
      exec .crc32 s = .next { s with
        engine := .crc .c32 a n (i + 1#33) (crc32Byte c (s.byteAt (a.toNat + i.toNat)))
        reads := s.reads ++ [a.toNat + i.toNat] }) ∧
    (n.toNat ≤ i.toNat → i.toNat < 4 →
      exec .crc32 s = .next { s with
        engine := .crc .c32 a n (i + 1#33) (crc32Byte c 0x00#8) }) ∧
    (n.toNat ≤ i.toNat → 4 ≤ i.toNat →
      exec .crc32 s = .next { s with
        res := c ^^^ 0xFFFFFFFF#32
        status := ⟨false, true, false, s.status.drop, 0#4⟩
        engine := .idle }))

/-- Rule R57: the whole CRC16 command in its four outcomes: null or empty, RANGE, BUS_ERROR at the
first failing byte, and the CRC-16 of the buffer, with exactly the reads the rule gives. The engine
has the turns it needs one after the other; `q` is what the schedule holds behind them. The number of
steps is rule R59's, with none of them fused, which is the model's choice (log entry 13). -/
def Obligations.Crc16CommandComputesCrc : Prop :=
  ∀ (s : State) (a n : Word) (q : List Turn), s.engine = .pending 0x00000003#32 a n →
    ((a = 0#32 ∨ n = 0#32) → s.sched = .engine :: q →
      runSteps 1 s = .next { s with
        res := 0#32, status := ⟨false, true, false, s.status.drop, 0#4⟩, engine := .idle,
        sched := q }) ∧
    (a ≠ 0#32 → n ≠ 0#32 → a.toNat + n.toNat - 1 > 0xFFFFFFFF → s.sched = .engine :: q →
      runSteps 1 s = .next { s with
        status := ⟨false, true, true, s.status.drop, 2#4⟩, engine := .idle, sched := q }) ∧
    (a ≠ 0#32 → n ≠ 0#32 → a.toNat + n.toNat - 1 ≤ 0xFFFFFFFF → ∀ j < n.toNat,
      (∀ i < j, s.MemOk (a.toNat + i)) → s.kindAt (a.toNat + j) = .busError →
      s.sched = List.replicate (j + 2) .engine ++ q →
      runSteps (j + 2) s = .next { s with
        status := ⟨false, true, true, s.status.drop, 3#4⟩, engine := .idle, sched := q,
        reads := s.reads ++ bufferAddrs a.toNat (j + 1) }) ∧
    (a ≠ 0#32 → n ≠ 0#32 → a.toNat + n.toNat - 1 ≤ 0xFFFFFFFF →
      (∀ i < n.toNat, s.MemOk (a.toNat + i)) →
      s.sched = List.replicate (n.toNat + 2) .engine ++ q →
      runSteps (n.toNat + 2) s = .next { s with
        res := (crc16Value (s.buffer a.toNat n.toNat)).setWidth 32,
        status := ⟨false, true, false, s.status.drop, 0#4⟩, engine := .idle, sched := q,
        reads := s.reads ++ bufferAddrs a.toNat n.toNat })

/-- Rule R58: the whole CRC32 command in its four outcomes, as for CRC16. A buffer of fewer than four
bytes takes the steps of four and is read only over its real length. The number of steps is rule
R59's, with none of them fused, which is the model's choice (log entry 13). -/
def Obligations.Crc32CommandComputesCrc : Prop :=
  ∀ (s : State) (a n : Word) (q : List Turn), s.engine = .pending 0x00000004#32 a n →
    ((a = 0#32 ∨ n = 0#32) → s.sched = .engine :: q →
      runSteps 1 s = .next { s with
        res := 0#32, status := ⟨false, true, false, s.status.drop, 0#4⟩, engine := .idle,
        sched := q }) ∧
    (a ≠ 0#32 → n ≠ 0#32 → a.toNat + n.toNat - 1 > 0xFFFFFFFF → s.sched = .engine :: q →
      runSteps 1 s = .next { s with
        status := ⟨false, true, true, s.status.drop, 2#4⟩, engine := .idle, sched := q }) ∧
    (a ≠ 0#32 → n ≠ 0#32 → a.toNat + n.toNat - 1 ≤ 0xFFFFFFFF → ∀ j < n.toNat,
      (∀ i < j, s.MemOk (a.toNat + i)) → s.kindAt (a.toNat + j) = .busError →
      s.sched = List.replicate (j + 2) .engine ++ q →
      runSteps (j + 2) s = .next { s with
        status := ⟨false, true, true, s.status.drop, 3#4⟩, engine := .idle, sched := q,
        reads := s.reads ++ bufferAddrs a.toNat (j + 1) }) ∧
    (a ≠ 0#32 → n ≠ 0#32 → a.toNat + n.toNat - 1 ≤ 0xFFFFFFFF →
      (∀ i < n.toNat, s.MemOk (a.toNat + i)) →
      s.sched = List.replicate (max n.toNat 4 + 2) .engine ++ q →
      runSteps (max n.toNat 4 + 2) s = .next { s with
        res := crc32Value (s.buffer a.toNat n.toNat),
        status := ⟨false, true, false, s.status.drop, 0#4⟩, engine := .idle, sched := q,
        reads := s.reads ++ bufferAddrs a.toNat n.toNat })

/-- Rule R32: a CRC command whose next read has a side effect is refused, by name, and no command stops
otherwise: none faults, and a refusal is of a CRC command, while a CRC in progress has such a read
next (rules R49, R50, R59, R65, R66 and R96 give every other step a next state). So on a platform
with no such address every command answers a next state. That the refusal comes at the step of that
read is the model's choice (log entry 8), and so is what `exec` of a command that the engine does not
hold does (log entry 9). -/
def Obligations.OnlySideEffectReadsAreRefused : Prop :=
  (∀ (k : CrcKind) (s : State) (a n c : Word) (i : BitVec 33), s.engine = .crc k a n i c →
    i.toNat < n.toNat → s.kindAt (a.toNat + i.toNat) = .sideEffect →
    exec k.instr s = .refused (.sideEffectBuffer (a.toNat + i.toNat))) ∧
  (∀ (i : Instr) (s : State) (f : Fault), exec i s ≠ .fault f) ∧
  (∀ (i : Instr) (s : State) (r : Refusal), exec i s = .refused r →
    (i = .crc16 ∨ i = .crc32) ∧
    ∃ k a n c j, s.engine = .crc k a n j c ∧ j.toNat < n.toNat ∧
      s.kindAt (a.toNat + j.toNat) = .sideEffect ∧
      r = .sideEffectBuffer (a.toNat + j.toNat)) ∧
  (∀ (i : Instr) (s : State), (∀ x, s.kindAt x ≠ .sideEffect) → ∃ t, exec i s = .next t)

/-- Rule R96 and I10: a read the platform never answers leaves the engine stuck with BUSY = 1. From a
state that meets the invariant, every step that is not a reset, the host's as well as the engine's,
keeps the engine, BUSY and the unanswered read; so does every run of any length with no reset in it.
Turns of the engine alone change nothing at all, and a reset ends it. -/
def Obligations.UnansweredReadSticks : Prop :=
  ∀ (s : State) (k : CrcKind) (a n c : Word) (i : BitVec 33),
    s.engine = .crc k a n i c → i.toNat < n.toNat → s.kindAt (a.toNat + i.toNat) = .silent →
    (∀ t, s.Inv → s.mover ≠ .reset → step s = .next t →
      s.status.busy = true ∧ t.status.busy = true ∧ t.engine = s.engine ∧
        t.kindAt (a.toNat + i.toNat) = .silent) ∧
    (∀ (m : Nat) (t : State), s.Inv → (∀ u ∈ s.sched.take m, u ≠ .reset) →
      runSteps m s = .next t → t.status.busy = true ∧ t.engine = s.engine) ∧
    (∀ (m : Nat) (q : List Turn), s.sched = List.replicate m .engine ++ q →
      runSteps m s = .next { s with sched := q }) ∧
    (∀ (m : Nat) (q : List Turn), s.sched = List.replicate m .engine ++ .reset :: q →
      ∃ t, runSteps (m + 1) s = .next t ∧ t.engine = .idle ∧ t.status.busy = false ∧
        t.status.done = false ∧ t.res = 0#32)

/-! ### The command lifecycle -/

/-- Rule R70: a host write of any word to CMD while BUSY = 0 is accepted in that same step. -/
def Obligations.CommandWriteIsAccepted : Prop :=
  ∀ (s : State) (w : Word) (p : List HostStmt), s.mover = .host →
    s.host = wr s.regBase .cmd w :: p → s.status.busy = false →
    step s = .next { s with
      engine := .pending w s.opa s.opb
      status := ⟨true, false, false, s.status.drop, 0#4⟩
      host := p, sched := s.sched.tail, reply := .ack }

/-- Rule R40: an accepted word that names no command completes with ILLEGAL_CMD, reads nothing and
leaves RES alone. -/
def Obligations.IllegalWordCompletesWithError : Prop :=
  ∀ (s : State) (w a n : Word), s.mover = .engine → s.engine = .pending w a n →
    (w.extractLsb' 4 28 ≠ 0#28 ∨ w.extractLsb' 0 4 = 0x0#4 ∨ 0x7 ≤ (w.extractLsb' 0 4).toNat) →
    step s = .next { s with
      status := ⟨false, true, true, s.status.drop, 1#4⟩
      engine := .idle, sched := s.sched.tail }

/-- Rule R77: a host write to CMD, OPA or OPB while BUSY = 1 has one effect, DROP. -/
def Obligations.WritesWhileBusyAreDropped : Prop :=
  ∀ (s : State) (r : Reg) (v : Word) (p : List HostStmt), r = .cmd ∨ r = .opa ∨ r = .opb →
    s.mover = .host → s.host = wr s.regBase r v :: p → s.status.busy = true →
    step s = .next { s with
      status := { s.status with drop := true }
      host := p, sched := s.sched.tail, reply := .ack }

/-- Rule R71: the engine's next step from an accepted word, by what the word decodes to: one
completing step for REVB, REVW, HENC and HDEC, the steps of rule R59 for the CRCs, an error for an
illegal word. -/
def Obligations.PendingStepFollowsDecode : Prop :=
  ∀ (s : State) (w a n : Word), s.mover = .engine → s.engine = .pending w a n →
    (∀ e, decodeWord w = .error e →
      ∃ t, step s = .next t ∧ t.engine = .idle ∧ t.res = s.res ∧
        t.status = ⟨false, true, true, s.status.drop, 1#4⟩) ∧
    (∀ i, decodeWord w = .ok i → i ≠ .crc16 → i ≠ .crc32 →
      ∃ t, step s = .next t ∧ t.engine = .idle ∧ t.reads = s.reads ∧
        t.status = ⟨false, true, false, s.status.drop, 0#4⟩) ∧
    (∀ k : CrcKind, decodeWord w = .ok k.instr →
      ∃ t, step s = .next t ∧ t.reads = s.reads ∧
        (t.engine = .idle ∧ t.status.done = true ∨
          t.engine = .crc k a n 0#33 k.seed ∧ t.status = s.status))

/-- Rule R82: an outcome stays until the next acceptance or a reset, and no command starts while
another runs. -/
def Obligations.OutcomeStaysUntilAcceptance : Prop :=
  (∀ s t : State, step s = .next t → s.engine = .idle → s.mover ≠ .reset → t.engine = .idle →
    t.status.done = s.status.done ∧ t.status.err = s.status.err ∧
      t.status.ecode = s.status.ecode) ∧
  (∀ (s t : State) (w a n : Word), step s = .next t → s.status.busy = true → s.engine ≠ .idle →
    t.engine = .pending w a n → s.engine = .pending w a n)

/-! ### The register window -/

/-- Rules R12 and R25: the STATUS word, and `rd STATUS`: whatever BUSY is, the host is answered with
that word, and nothing but the host's own progress changes. -/
def Obligations.StatusWordLayout : Prop :=
  (∀ st : Status,
    st.word.getLsbD 0 = st.busy ∧ st.word.getLsbD 1 = st.done ∧ st.word.getLsbD 2 = st.err ∧
    st.word.getLsbD 3 = st.drop ∧ st.word.extractLsb' 4 4 = st.ecode ∧
    st.word.extractLsb' 8 24 = 0#24) ∧
  (∀ (s : State) (p : List HostStmt), s.mover = .host → s.host = rd s.regBase .status :: p →
    step s = .next { s with host := p, sched := s.sched.tail, reply := .data s.status.word })

/-- The register window is the 32 bytes at REG_BASE, REG_BASE is 32-byte aligned, and the five
registers lie at the offsets 0x00, 0x04, 0x08, 0x0C and 0x10 in it (rules R6, R7 and R21). -/
def Obligations.WindowIsThirtyTwoBytes : Prop :=
  (∀ (s : State) (addr : Word), (s.windowOffset addr).isSome ↔
    s.regBase.toNat * 32 ≤ addr.toNat ∧ addr.toNat ≤ s.regBase.toNat * 32 + 0x1F) ∧
  (∀ (s : State) (off : BitVec 5), s.windowOffset (windowAddr s.regBase off) = some off ∧
    (windowAddr s.regBase off).toNat = s.regBase.toNat * 32 + off.toNat) ∧
  (∀ (r : Reg) (off : BitVec 5), regAtOffset off = some r ↔ off = r.offset) ∧
  (Reg.cmd.offset = 0x00#5 ∧ Reg.status.offset = 0x04#5 ∧ Reg.opa.offset = 0x08#5 ∧
    Reg.opb.offset = 0x0C#5 ∧ Reg.res.offset = 0x10#5)

/-- Rules R9 and R10 for OPA and OPB: a host write while BUSY = 0 stores all 32 bits, one while
BUSY = 1 is dropped, a host read returns the stored value whatever BUSY is, the block never writes
them, and acceptance reads the operands from them. -/
def Obligations.OperandRegisters : Prop :=
  (∀ (s : State) (v : Word) (p : List HostStmt), s.mover = .host →
    (s.host = wr s.regBase .opa v :: p → s.status.busy = false →
      step s = .next { s with opa := v, host := p, sched := s.sched.tail, reply := .ack }) ∧
    (s.host = wr s.regBase .opb v :: p → s.status.busy = false →
      step s = .next { s with opb := v, host := p, sched := s.sched.tail, reply := .ack }) ∧
    (s.host = wr s.regBase .opa v :: p ∨ s.host = wr s.regBase .opb v :: p →
      s.status.busy = true →
      step s = .next { s with
        status := { s.status with drop := true }, host := p, sched := s.sched.tail,
        reply := .ack }) ∧
    (s.host = rd s.regBase .opa :: p →
      step s = .next { s with host := p, sched := s.sched.tail, reply := .data s.opa }) ∧
    (s.host = rd s.regBase .opb :: p →
      step s = .next { s with host := p, sched := s.sched.tail, reply := .data s.opb }) ∧
    (s.host = wr s.regBase .cmd v :: p → s.status.busy = false →
      ∃ t, step s = .next t ∧ t.operandA = s.opa ∧ t.operandN = s.opb)) ∧
  (∀ s t : State, engineStep s = .next t → t.opa = s.opa ∧ t.opb = s.opb)

/-- Rules R14 and R15: a host write to STATUS is taken whatever BUSY is, clears DROP exactly when its
bit 3 is set, and changes no other field. And over the whole machine DROP is cleared only by a reset
or by such a write, and set only by a write to CMD, OPA or OPB that is dropped because BUSY = 1. -/
def Obligations.StatusWriteClearsOnlyDrop : Prop :=
  (∀ (s : State) (v : Word) (p : List HostStmt), s.mover = .host →
    s.host = wr s.regBase .status v :: p →
    step s = .next { s with
      status := { s.status with drop := if v.getLsbD 3 then false else s.status.drop }
      host := p, sched := s.sched.tail, reply := .ack }) ∧
  (∀ s t : State, step s = .next t → t.status.drop ≠ s.status.drop →
    (s.mover = .reset ∧ t.status.drop = false) ∨
    (∃ v p, s.mover = .host ∧ s.host = wr s.regBase .status v :: p ∧ v.getLsbD 3 = true ∧
      t.status.drop = false) ∨
    (∃ r v p, s.mover = .host ∧ s.status.busy = true ∧ (r = .cmd ∨ r = .opa ∨ r = .opb) ∧
      s.host = wr s.regBase r v :: p ∧ t.status.drop = true))

/-- Rule R8: CMD holds no state: a host read returns 0 and has no side effect, a host write goes to
acceptance (or is dropped while BUSY = 1). -/
def Obligations.CmdHoldsNoState : Prop :=
  (∀ (s : State) (p : List HostStmt), s.mover = .host → s.host = rd s.regBase .cmd :: p →
    step s = .next { s with
      host := p, sched := s.sched.tail, reply := .data 0x00000000#32 }) ∧
  (∀ (s : State) (w : Word) (p : List HostStmt), s.mover = .host →
    s.host = wr s.regBase .cmd w :: p →
    (s.status.busy = false →
      step s = .next { s.accept w with host := p, sched := s.sched.tail, reply := .ack }) ∧
    (s.status.busy = true →
      step s = .next { s with
        status := { s.status with drop := true }, host := p, sched := s.sched.tail,
        reply := .ack }))

/-- Rule R11: a host write to RES is ignored; a read while BUSY = 0 returns the last value written; a
read while BUSY = 1 returns a value that nothing constrains (the free value `Config.busyRes`, a new
one per read; log entry 4); and RES changes only when a command completes without error or on
reset. -/
def Obligations.ResIsReadOnly : Prop :=
  (∀ (s : State) (v : Word) (p : List HostStmt), s.mover = .host →
    (s.host = wr s.regBase .res v :: p →
      step s = .next { s with host := p, sched := s.sched.tail, reply := .ack }) ∧
    (s.host = rd s.regBase .res :: p → s.status.busy = false →
      step s = .next { s with host := p, sched := s.sched.tail, reply := .data s.res }) ∧
    (s.host = rd s.regBase .res :: p → s.status.busy = true →
      step s = .next { s with
        host := p, sched := s.sched.tail, reply := .data (Config.busyRes s.draws),
        draws := s.draws + 1 })) ∧
  (∀ s t : State, step s = .next t → t.res ≠ s.res →
    s.mover = .reset ∨
    (s.mover = .engine ∧ s.engine ≠ .idle ∧ t.engine = .idle ∧
      t.status = ⟨false, true, false, s.status.drop, 0#4⟩))

/-- Rule R24: reserved offsets read 0 and ignore writes. -/
def Obligations.ReservedOffsetsReadZero : Prop :=
  ∀ (s : State) (off : BitVec 5) (v : Word) (p : List HostStmt), s.mover = .host →
    off = 0x14#5 ∨ off = 0x18#5 ∨ off = 0x1C#5 →
    (s.host = .read (windowAddr s.regBase off) .word :: p →
      step s = .next { s with
        host := p, sched := s.sched.tail, reply := .data 0x00000000#32 }) ∧
    (s.host = .write (windowAddr s.regBase off) .word v :: p →
      step s = .next { s with host := p, sched := s.sched.tail, reply := .ack })

/-- Rule R23: an access to the window that is not a 32-bit access at a multiple-of-4 offset is answered
with a bus error and changes no state of the block. That the answer is a value the host holds, behind
which its program goes on, is the model's choice (log entry 7). -/
def Obligations.BadAccessGetsBusError : Prop :=
  ∀ (s : State) (off : BitVec 5) (z : AccessSize) (v : Word) (p : List HostStmt),
    s.mover = .host → z ≠ .word ∨ off.toNat % 4 ≠ 0 →
    s.host = .read (windowAddr s.regBase off) z :: p ∨
      s.host = .write (windowAddr s.regBase off) z v :: p →
    step s = .next { s with host := p, sched := s.sched.tail, reply := .busError }

/-- Rule R25, reads: no host read, of any address and width, nor a `poll`, changes the block, the
memory or the platform. That a narrow or misaligned read of the window changes nothing is rule R23's;
that it, like a read outside the window, answers a next state is the model's choice (log entry 7, and
log entry 14 for a read that starts below the window). -/
def Obligations.HostReadsHaveNoSideEffect : Prop :=
  ∀ (s : State) (p : List HostStmt), s.mover = .host →
    (∃ addr z, s.host = .read addr z :: p) ∨ s.host = .poll :: p →
    ∃ t, step s = .next t ∧ t.opa = s.opa ∧ t.opb = s.opb ∧ t.res = s.res ∧
      t.status = s.status ∧ t.engine = s.engine ∧ t.mem = s.mem ∧ t.map = s.map ∧
      t.regBase = s.regBase ∧ t.reads = s.reads ∧ t.sched = s.sched.tail

/-! ### Host programs and memory -/

/-- Rule R43's `poll` and `mem`: `poll` reads STATUS and is over when BUSY = 0; `mem` stores its bytes
one a step, at rising addresses, each store leaving every other byte as it was. That a store outside
the window lands whatever MEM_OK says, one byte a step, is the model's choice (log entry 10). A byte
store inside the register window is a narrow access (rule R23; log entry 7); a store above the buffer
space, which rule R21 does not have, is a fault (log entry 12). -/
def Obligations.PollAndMemStatements : Prop :=
  (∀ (s : State) (p : List HostStmt), s.mover = .host → s.host = .poll :: p →
    step s = .next { s with
      host := if s.status.busy then .poll :: p else p
      sched := s.sched.tail, reply := .data s.status.word }) ∧
  (∀ (s : State) (addr : Nat) (b : Byte) (bs : List Byte) (p : List HostStmt), s.mover = .host →
    s.host = .mem addr (b :: bs) :: p →
    (addr < spaceSize → s.windowOffset (BitVec.ofNat 32 addr) = none →
      ∃ t, step s = .next t ∧ t.byteAt addr = b ∧
        (∀ x, x ≠ addr → t.byteAt x = s.byteAt x) ∧
        t = { s with
          host := .mem (addr + 1) bs :: p, sched := s.sched.tail, mem := t.mem }) ∧
    (∀ off, addr < spaceSize → s.windowOffset (BitVec.ofNat 32 addr) = some off →
      step s = .next { s with
        host := .mem (addr + 1) bs :: p, sched := s.sched.tail, reply := .busError }) ∧
    (spaceSize ≤ addr → step s = .fault (.outsideBufferSpace addr)))

/-- Rule R44: from an idle block, each pseudo-instruction leaves its result in RES and its statements
all executed; the CRCs are stated for a buffer that answers every read. The schedule is empty, so the
order of moves is the model's choice: a busy engine moves before the host (log entry 5). The counts of
steps of the CRCs are rule R59's with none of them fused, which is the model's choice too (log
entry 13). -/
def Obligations.PseudoInstructionsLeaveResult : Prop :=
  ∀ (s : State) (p : List HostStmt) (v n : Word) (ms ce dw : Bool), s.sched = [] →
    s.engine = .idle → s.status.busy = false →
    (s.host = revbProgram s.regBase v ++ p →
      ∃ t, runSteps 4 s = .next t ∧ t.host = p ∧ t.status.busy = false ∧ t.status.err = false ∧
        t.res = (rev8 (v.extractLsb' 0 8)).setWidth 32) ∧
    (s.host = revwProgram s.regBase v ++ p →
      ∃ t, runSteps 4 s = .next t ∧ t.host = p ∧ t.status.busy = false ∧ t.status.err = false ∧
        t.res = (rev16 (v.extractLsb' 0 16)).setWidth 32) ∧
    (s.host = hencProgram s.regBase v ms ce dw ++ p →
      ∃ t, runSteps 5 s = .next t ∧ t.host = p ∧ t.status.busy = false ∧ t.status.err = false ∧
        t.res = packEncoded (v.extractLsb' 0 16)
          (encodeHeader .twice ⟨v.extractLsb' 0 11, ms, ce, dw⟩).1
          (encodeHeader .twice ⟨v.extractLsb' 0 11, ms, ce, dw⟩).2) ∧
    (s.host = hdecProgram s.regBase v ++ p →
      ∃ t, runSteps 4 s = .next t ∧ t.host = p ∧ t.status.busy = false ∧ t.status.err = false ∧
        t.res = packDecoded (decodeHeader .twice (v.extractLsb' 0 8) (v.extractLsb' 8 8))) ∧
    (v ≠ 0#32 → n ≠ 0#32 → v.toNat + n.toNat - 1 ≤ 0xFFFFFFFF →
      (∀ i < n.toNat, s.MemOk (v.toNat + i)) →
      (s.host = crc16Program s.regBase v n ++ p →
        ∃ t, runSteps (n.toNat + 6) s = .next t ∧ t.host = p ∧ t.status.busy = false ∧
          t.status.err = false ∧
          t.res = (crc16Value (s.buffer v.toNat n.toNat)).setWidth 32) ∧
      (s.host = crc32Program s.regBase v n ++ p →
        ∃ t, runSteps (max n.toNat 4 + 6) s = .next t ∧ t.host = p ∧ t.status.busy = false ∧
          t.status.err = false ∧ t.res = crc32Value (s.buffer v.toNat n.toNat)))

/-- Rule R27: b0 is the low byte of RES after HENC and of OPA for HDEC; a little-endian 16-bit store of
RES[15:0] writes b0 at `dest` and b1 at `dest + 1`, and a little-endian 16-bit load gives the
OPA[15:0] that HDEC expects. That the store is a `mem` statement, which lands whatever MEM_OK says, one
byte a step, and the load is the function `loadHalf` are the model's choices (log entry 10), and so is
what a load at 0xFFFFFFFF takes as its second byte (log entry 15) and what a load takes at an address
of the register window (log entry 16). -/
def Obligations.HeaderBytesAreLittleEndian : Prop :=
  (∀ (a n : Word), byteLane (hencResult .twice a n) 0 = (encodeHeader .twice (headerOperand a n)).1 ∧
    byteLane (hencResult .twice a n) 1 = (encodeHeader .twice (headerOperand a n)).2) ∧
  (∀ (s : State) (dest : Nat) (v : Word) (p : List HostStmt), s.sched = [.host, .host] →
    s.host = storeHalf dest v :: p → dest + 1 < spaceSize →
    s.windowOffset (BitVec.ofNat 32 dest) = none →
    s.windowOffset (BitVec.ofNat 32 (dest + 1)) = none →
    ∃ t, runSteps 2 s = .next t ∧ t.byteAt dest = v.extractLsb' 0 8 ∧
      t.byteAt (dest + 1) = v.extractLsb' 8 8 ∧ t.loadHalf dest = v.extractLsb' 0 16) ∧
  (∀ (s : State) (dest : Nat) (hi : Half),
    b0Operand (hi ++ s.loadHalf dest) = s.byteAt dest ∧
      b1Operand (hi ++ s.loadHalf dest) = s.byteAt (dest + 1))

/-- Rule R31: the block never writes the buffer space: only a `mem` statement of the host changes
memory. -/
def Obligations.OnlyHostStoresChangeMemory : Prop :=
  ∀ s t : State, step s = .next t → t.mem ≠ s.mem →
    s.mover = .host ∧ ∃ addr b bs p, s.host = .mem addr (b :: bs) :: p ∧
      t.mem = Memory.store s.mem addr b

/-- Rule R29: a step performs at most one buffer read, and only the engine's, of byte `a + i` of a CRC
in progress within its real length. -/
def Obligations.OnlyCrcBytesAreRead : Prop :=
  ∀ s t : State, step s = .next t →
    t.reads = s.reads ∨
    ∃ k a n i c, s.mover = .engine ∧ s.engine = .crc k a n i c ∧ i.toNat < n.toNat ∧
      t.reads = s.reads ++ [a.toNat + i.toNat] ∧
      (s.MemOk (a.toNat + i.toNat) ∨ t.engine = .idle)

/-! ### Frames -/

/-- The frame of all six commands: when `exec` answers a next state, OPA, OPB, DROP, every byte of
memory, the platform, the host's program, the schedule, the last answer and the count of free values
are as before; what may change is RES, STATUS but for DROP, the engine, and, for a CRC, the list of
reads. -/
def Obligations.CommandsKeepTheirFrame : Prop :=
  (∀ (i : Instr) (s t : State), exec i s = .next t →
    SameOutsideEngine s t ∧ ∀ x, t.byteAt x = s.byteAt x) ∧
  (∀ (i : Instr) (s t : State), i ≠ .crc16 → i ≠ .crc32 → exec i s = .next t →
    t.reads = s.reads) ∧
  (∀ (i : Instr) (s t : State), exec i s = .next t → t.engine ≠ .idle →
    t.res = s.res ∧ t.status = s.status)

/-! ### Reset -/

/-- Rule R20: after reset OPA, OPB, RES and STATUS are 0 and the engine is Idle. -/
def Obligations.ResetStateIsZero : Prop :=
  State.reset.opa = 0x00000000#32 ∧ State.reset.opb = 0x00000000#32 ∧
  State.reset.res = 0x00000000#32 ∧ State.reset.status.word = 0x00000000#32 ∧
  State.reset.status = ⟨false, false, false, false, 0#4⟩ ∧ State.reset.engine = .idle ∧
  State.reset.readReg Reg.cmd.offset = 0x00000000#32

/-- Rule R85: asserting reset is one step that gives the block its reset values, whatever it was
doing; a running command is abandoned: it does not complete, without RES and without DONE, and
performs no further read. -/
def Obligations.ResetAbandonsCommand : Prop :=
  ∀ (s : State) (q : List Turn), s.sched = .reset :: q →
    ∃ t, step s = .next t ∧ t.opa = 0x00000000#32 ∧ t.opb = 0x00000000#32 ∧
      t.res = 0x00000000#32 ∧ t.status.word = 0x00000000#32 ∧
      t.status = ⟨false, false, false, false, 0#4⟩ ∧ t.engine = .idle ∧ t.reads = s.reads

/-- What is not the block's (rule R19) is as before a reset: memory, the platform, the host's program
and its last answer, the observer's list and the count of free values. That reset reaches no further
than the block is the model's reading (log entry 11). -/
def Obligations.ResetChangesTheBlockAlone : Prop :=
  ∀ (s t : State), s.mover = .reset → step s = .next t →
    t.mem = s.mem ∧ (∀ x, t.byteAt x = s.byteAt x) ∧ t.map = s.map ∧ t.regBase = s.regBase ∧
    t.host = s.host ∧ t.sched = s.sched.tail ∧ t.reply = s.reply ∧ t.reads = s.reads ∧
    t.draws = s.draws

/-! ### Invariants and whole-machine rules -/

/-- The invariant of the machine holds at reset. -/
def Obligations.InvariantAtReset : Prop := State.reset.Inv

/-- Every step keeps the invariant of the machine: BUSY agrees with the engine (rule R17), STATUS
shows a legal outcome (rules R12 and R74), the latched operands equal the registers (rule R18), a CRC
in progress is within its bounds (rule R17), and memory keeps its canonical form. -/
def Obligations.EveryStepKeepsInvariant : Prop :=
  ∀ s t : State, s.Inv → step s = .next t → t.Inv

/-- Whatever else happens in the meantime (host reads and writes, dropped commands, stores elsewhere),
while the bytes the command covers stay as they are the CRC register holds the CRC of the bytes taken
so far; and a step that completes a CRC without error writes the CRC of the buffer to RES (rules R37,
R53, R54 and R90). -/
def Obligations.CrcSurvivesHostActivity : Prop :=
  (∀ s t : State, s.Inv → s.CrcProgress → s.BufferKept t → step s = .next t → t.CrcProgress) ∧
  (∀ (s t : State) (k : CrcKind) (a n c : Word) (i : BitVec 33), s.Inv → s.CrcProgress →
    s.mover = .engine → s.engine = .crc k a n i c → step s = .next t → t.engine = .idle →
    t.status.err = false → t.res = k.value (s.buffer a.toNat n.toNat))

/-- Rule R96, progress: when the platform answers every read of the running command, the engine is
done after a bounded number of turns of its own. -/
def Obligations.BusyEndsWhenReadsAreAnswered : Prop :=
  ∀ (s : State) (q : List Turn), s.Inv → s.status.busy = true → s.BufferAnswered →
    s.sched = List.replicate s.stepsLeft .engine ++ q →
    ∃ k ≤ s.stepsLeft, ∃ t, runSteps k s = .next t ∧ t.status.busy = false ∧
      t.status.done = true

/-- The machine stops only where log entries 8 and 12 say. A step that faults is the host's, at a `mem`
store at or above the end of the buffer space (rule R21); a step that is refused is the engine's, of a
CRC in progress whose next read has a side effect (rule R32). So with no side-effect address on the
platform and no host store above the space every step answers a next state, and both premises still
hold in it. An access that rule R23 answers with a bus error is no stop, by the model's choice (log
entry 7). -/
def Obligations.MachineNeverStopsUnasked : Prop :=
  (∀ (s : State) (f : Fault), step s = .fault f →
    s.mover = .host ∧ ∃ addr b bs p, s.host = .mem addr (b :: bs) :: p ∧ spaceSize ≤ addr ∧
      f = .outsideBufferSpace addr) ∧
  (∀ (s : State) (r : Refusal), step s = .refused r →
    s.mover = .engine ∧ ∃ k a n c j, s.engine = .crc k a n j c ∧ j.toNat < n.toNat ∧
      s.kindAt (a.toNat + j.toNat) = .sideEffect ∧
      r = .sideEffectBuffer (a.toNat + j.toNat)) ∧
  (∀ s : State, s.NoSideEffects → (∀ x ∈ s.host, x.InSpace) →
    ∃ t, step s = .next t ∧ t.NoSideEffects ∧ ∀ x ∈ t.host, x.InSpace)

/-- What can change OPA, OPB and the engine (rules R9, R10, R25, R70 and R85). A host access outside the
window does not reach the block, by the model's choice (log entry 7, and log entry 14 for one that
starts below the window). Over every step, OPA and OPB change only by a reset or by a host write to
that register while BUSY = 0; and a step of the host changes the engine only by acceptance. -/
def Obligations.OperandsAndEngineChangeOnlyByRule : Prop :=
  (∀ (s : State) (addr : Word) (z : AccessSize) (v : Word) (p : List HostStmt), s.mover = .host →
    s.windowOffset addr = none → s.host = .write addr z v :: p ∨ s.host = .read addr z :: p →
    step s = .next { s with host := p, sched := s.sched.tail, reply := .notSelected }) ∧
  (∀ s t : State, step s = .next t → t.opa ≠ s.opa →
    (s.mover = .reset ∧ t.opa = 0x00000000#32) ∨
    (s.mover = .host ∧ s.status.busy = false ∧ ∃ p, s.host = wr s.regBase .opa t.opa :: p)) ∧
  (∀ s t : State, step s = .next t → t.opb ≠ s.opb →
    (s.mover = .reset ∧ t.opb = 0x00000000#32) ∨
    (s.mover = .host ∧ s.status.busy = false ∧ ∃ p, s.host = wr s.regBase .opb t.opb :: p)) ∧
  (∀ s t : State, s.mover = .host → step s = .next t → t.engine ≠ s.engine →
    s.status.busy = false ∧ ∃ w p, s.host = wr s.regBase .cmd w :: p ∧
      t.engine = .pending w s.opa s.opb)
end

