-- ==== Sys2Proof/Laws/State.lean ====
section
/-! SUPPORT. Laws/State.lean: what each update of the state does to each field, one lemma per field
per update, so that no proof unfolds a record update. -/

namespace Sys2Proof.Machine

variable (s : State)

/-! `State.logRead` -/

@[simp] theorem State.logRead_opa (a : Nat) : (s.logRead a).opa = s.opa := rfl
@[simp] theorem State.logRead_opb (a : Nat) : (s.logRead a).opb = s.opb := rfl
@[simp] theorem State.logRead_res (a : Nat) : (s.logRead a).res = s.res := rfl
@[simp] theorem State.logRead_status (a : Nat) : (s.logRead a).status = s.status := rfl
@[simp] theorem State.logRead_engine (a : Nat) : (s.logRead a).engine = s.engine := rfl
@[simp] theorem State.logRead_mem (a : Nat) : (s.logRead a).mem = s.mem := rfl
@[simp] theorem State.logRead_map (a : Nat) : (s.logRead a).map = s.map := rfl
@[simp] theorem State.logRead_regBase (a : Nat) : (s.logRead a).regBase = s.regBase := rfl
@[simp] theorem State.logRead_host (a : Nat) : (s.logRead a).host = s.host := rfl
@[simp] theorem State.logRead_sched (a : Nat) : (s.logRead a).sched = s.sched := rfl
@[simp] theorem State.logRead_reply (a : Nat) : (s.logRead a).reply = s.reply := rfl
@[simp] theorem State.logRead_reads (a : Nat) : (s.logRead a).reads = s.reads ++ [a] := rfl
@[simp] theorem State.logRead_draws (a : Nat) : (s.logRead a).draws = s.draws := rfl

/-! `State.accept` -/

@[simp] theorem State.accept_opa (w : Word) : (s.accept w).opa = s.opa := rfl
@[simp] theorem State.accept_opb (w : Word) : (s.accept w).opb = s.opb := rfl
@[simp] theorem State.accept_res (w : Word) : (s.accept w).res = s.res := rfl
@[simp] theorem State.accept_status (w : Word) : (s.accept w).status = s.status.onAccept := rfl
@[simp] theorem State.accept_engine (w : Word) : (s.accept w).engine = .pending w s.opa s.opb := rfl
@[simp] theorem State.accept_mem (w : Word) : (s.accept w).mem = s.mem := rfl
@[simp] theorem State.accept_map (w : Word) : (s.accept w).map = s.map := rfl
@[simp] theorem State.accept_regBase (w : Word) : (s.accept w).regBase = s.regBase := rfl
@[simp] theorem State.accept_host (w : Word) : (s.accept w).host = s.host := rfl
@[simp] theorem State.accept_sched (w : Word) : (s.accept w).sched = s.sched := rfl
@[simp] theorem State.accept_reply (w : Word) : (s.accept w).reply = s.reply := rfl
@[simp] theorem State.accept_reads (w : Word) : (s.accept w).reads = s.reads := rfl
@[simp] theorem State.accept_draws (w : Word) : (s.accept w).draws = s.draws := rfl

/-! `State.completeOk` -/

@[simp] theorem State.completeOk_opa (v : Word) : (s.completeOk v).opa = s.opa := rfl
@[simp] theorem State.completeOk_opb (v : Word) : (s.completeOk v).opb = s.opb := rfl
@[simp] theorem State.completeOk_res (v : Word) : (s.completeOk v).res = v := rfl
@[simp] theorem State.completeOk_status (v : Word) : (s.completeOk v).status = s.status.onComplete .none := rfl
@[simp] theorem State.completeOk_engine (v : Word) : (s.completeOk v).engine = .idle := rfl
@[simp] theorem State.completeOk_mem (v : Word) : (s.completeOk v).mem = s.mem := rfl
@[simp] theorem State.completeOk_map (v : Word) : (s.completeOk v).map = s.map := rfl
@[simp] theorem State.completeOk_regBase (v : Word) : (s.completeOk v).regBase = s.regBase := rfl
@[simp] theorem State.completeOk_host (v : Word) : (s.completeOk v).host = s.host := rfl
@[simp] theorem State.completeOk_sched (v : Word) : (s.completeOk v).sched = s.sched := rfl
@[simp] theorem State.completeOk_reply (v : Word) : (s.completeOk v).reply = s.reply := rfl
@[simp] theorem State.completeOk_reads (v : Word) : (s.completeOk v).reads = s.reads := rfl
@[simp] theorem State.completeOk_draws (v : Word) : (s.completeOk v).draws = s.draws := rfl

/-! `State.raiseError` -/

@[simp] theorem State.raiseError_opa (e : ErrCode) : (s.raiseError e).opa = s.opa := rfl
@[simp] theorem State.raiseError_opb (e : ErrCode) : (s.raiseError e).opb = s.opb := rfl
@[simp] theorem State.raiseError_res (e : ErrCode) : (s.raiseError e).res = s.res := rfl
@[simp] theorem State.raiseError_status (e : ErrCode) : (s.raiseError e).status = s.status.onComplete e := rfl
@[simp] theorem State.raiseError_engine (e : ErrCode) : (s.raiseError e).engine = .idle := rfl
@[simp] theorem State.raiseError_mem (e : ErrCode) : (s.raiseError e).mem = s.mem := rfl
@[simp] theorem State.raiseError_map (e : ErrCode) : (s.raiseError e).map = s.map := rfl
@[simp] theorem State.raiseError_regBase (e : ErrCode) : (s.raiseError e).regBase = s.regBase := rfl
@[simp] theorem State.raiseError_host (e : ErrCode) : (s.raiseError e).host = s.host := rfl
@[simp] theorem State.raiseError_sched (e : ErrCode) : (s.raiseError e).sched = s.sched := rfl
@[simp] theorem State.raiseError_reply (e : ErrCode) : (s.raiseError e).reply = s.reply := rfl
@[simp] theorem State.raiseError_reads (e : ErrCode) : (s.raiseError e).reads = s.reads := rfl
@[simp] theorem State.raiseError_draws (e : ErrCode) : (s.raiseError e).draws = s.draws := rfl

/-! `State.setEngine` -/

@[simp] theorem State.setEngine_opa (e : Engine) : (s.setEngine e).opa = s.opa := rfl
@[simp] theorem State.setEngine_opb (e : Engine) : (s.setEngine e).opb = s.opb := rfl
@[simp] theorem State.setEngine_res (e : Engine) : (s.setEngine e).res = s.res := rfl
@[simp] theorem State.setEngine_status (e : Engine) : (s.setEngine e).status = s.status := rfl
@[simp] theorem State.setEngine_engine (e : Engine) : (s.setEngine e).engine = e := rfl
@[simp] theorem State.setEngine_mem (e : Engine) : (s.setEngine e).mem = s.mem := rfl
@[simp] theorem State.setEngine_map (e : Engine) : (s.setEngine e).map = s.map := rfl
@[simp] theorem State.setEngine_regBase (e : Engine) : (s.setEngine e).regBase = s.regBase := rfl
@[simp] theorem State.setEngine_host (e : Engine) : (s.setEngine e).host = s.host := rfl
@[simp] theorem State.setEngine_sched (e : Engine) : (s.setEngine e).sched = s.sched := rfl
@[simp] theorem State.setEngine_reply (e : Engine) : (s.setEngine e).reply = s.reply := rfl
@[simp] theorem State.setEngine_reads (e : Engine) : (s.setEngine e).reads = s.reads := rfl
@[simp] theorem State.setEngine_draws (e : Engine) : (s.setEngine e).draws = s.draws := rfl

/-! `State.assertReset` -/

@[simp] theorem State.assertReset_opa : (s.assertReset).opa = 0#32 := rfl
@[simp] theorem State.assertReset_opb : (s.assertReset).opb = 0#32 := rfl
@[simp] theorem State.assertReset_res : (s.assertReset).res = 0#32 := rfl
@[simp] theorem State.assertReset_status : (s.assertReset).status = Status.reset := rfl
@[simp] theorem State.assertReset_engine : (s.assertReset).engine = .idle := rfl
@[simp] theorem State.assertReset_mem : (s.assertReset).mem = s.mem := rfl
@[simp] theorem State.assertReset_map : (s.assertReset).map = s.map := rfl
@[simp] theorem State.assertReset_regBase : (s.assertReset).regBase = s.regBase := rfl
@[simp] theorem State.assertReset_host : (s.assertReset).host = s.host := rfl
@[simp] theorem State.assertReset_sched : (s.assertReset).sched = s.sched := rfl
@[simp] theorem State.assertReset_reply : (s.assertReset).reply = s.reply := rfl
@[simp] theorem State.assertReset_reads : (s.assertReset).reads = s.reads := rfl
@[simp] theorem State.assertReset_draws : (s.assertReset).draws = s.draws := rfl

/-! `State.dropWrite` -/

@[simp] theorem State.dropWrite_opa : (s.dropWrite).opa = s.opa := rfl
@[simp] theorem State.dropWrite_opb : (s.dropWrite).opb = s.opb := rfl
@[simp] theorem State.dropWrite_res : (s.dropWrite).res = s.res := rfl
@[simp] theorem State.dropWrite_status : (s.dropWrite).status = s.status.onDrop := rfl
@[simp] theorem State.dropWrite_engine : (s.dropWrite).engine = s.engine := rfl
@[simp] theorem State.dropWrite_mem : (s.dropWrite).mem = s.mem := rfl
@[simp] theorem State.dropWrite_map : (s.dropWrite).map = s.map := rfl
@[simp] theorem State.dropWrite_regBase : (s.dropWrite).regBase = s.regBase := rfl
@[simp] theorem State.dropWrite_host : (s.dropWrite).host = s.host := rfl
@[simp] theorem State.dropWrite_sched : (s.dropWrite).sched = s.sched := rfl
@[simp] theorem State.dropWrite_reply : (s.dropWrite).reply = s.reply := rfl
@[simp] theorem State.dropWrite_reads : (s.dropWrite).reads = s.reads := rfl
@[simp] theorem State.dropWrite_draws : (s.dropWrite).draws = s.draws := rfl

/-! `State.setReply` -/

@[simp] theorem State.setReply_opa (r : HostReply) : (s.setReply r).opa = s.opa := rfl
@[simp] theorem State.setReply_opb (r : HostReply) : (s.setReply r).opb = s.opb := rfl
@[simp] theorem State.setReply_res (r : HostReply) : (s.setReply r).res = s.res := rfl
@[simp] theorem State.setReply_status (r : HostReply) : (s.setReply r).status = s.status := rfl
@[simp] theorem State.setReply_engine (r : HostReply) : (s.setReply r).engine = s.engine := rfl
@[simp] theorem State.setReply_mem (r : HostReply) : (s.setReply r).mem = s.mem := rfl
@[simp] theorem State.setReply_map (r : HostReply) : (s.setReply r).map = s.map := rfl
@[simp] theorem State.setReply_regBase (r : HostReply) : (s.setReply r).regBase = s.regBase := rfl
@[simp] theorem State.setReply_host (r : HostReply) : (s.setReply r).host = s.host := rfl
@[simp] theorem State.setReply_sched (r : HostReply) : (s.setReply r).sched = s.sched := rfl
@[simp] theorem State.setReply_reply (r : HostReply) : (s.setReply r).reply = r := rfl
@[simp] theorem State.setReply_reads (r : HostReply) : (s.setReply r).reads = s.reads := rfl
@[simp] theorem State.setReply_draws (r : HostReply) : (s.setReply r).draws = s.draws := rfl

/-! `State.setHost` -/

@[simp] theorem State.setHost_opa (p : List HostStmt) : (s.setHost p).opa = s.opa := rfl
@[simp] theorem State.setHost_opb (p : List HostStmt) : (s.setHost p).opb = s.opb := rfl
@[simp] theorem State.setHost_res (p : List HostStmt) : (s.setHost p).res = s.res := rfl
@[simp] theorem State.setHost_status (p : List HostStmt) : (s.setHost p).status = s.status := rfl
@[simp] theorem State.setHost_engine (p : List HostStmt) : (s.setHost p).engine = s.engine := rfl
@[simp] theorem State.setHost_mem (p : List HostStmt) : (s.setHost p).mem = s.mem := rfl
@[simp] theorem State.setHost_map (p : List HostStmt) : (s.setHost p).map = s.map := rfl
@[simp] theorem State.setHost_regBase (p : List HostStmt) : (s.setHost p).regBase = s.regBase := rfl
@[simp] theorem State.setHost_host (p : List HostStmt) : (s.setHost p).host = p := rfl
@[simp] theorem State.setHost_sched (p : List HostStmt) : (s.setHost p).sched = s.sched := rfl
@[simp] theorem State.setHost_reply (p : List HostStmt) : (s.setHost p).reply = s.reply := rfl
@[simp] theorem State.setHost_reads (p : List HostStmt) : (s.setHost p).reads = s.reads := rfl
@[simp] theorem State.setHost_draws (p : List HostStmt) : (s.setHost p).draws = s.draws := rfl

/-! `State.popTurn` -/

@[simp] theorem State.popTurn_opa : (s.popTurn).opa = s.opa := rfl
@[simp] theorem State.popTurn_opb : (s.popTurn).opb = s.opb := rfl
@[simp] theorem State.popTurn_res : (s.popTurn).res = s.res := rfl
@[simp] theorem State.popTurn_status : (s.popTurn).status = s.status := rfl
@[simp] theorem State.popTurn_engine : (s.popTurn).engine = s.engine := rfl
@[simp] theorem State.popTurn_mem : (s.popTurn).mem = s.mem := rfl
@[simp] theorem State.popTurn_map : (s.popTurn).map = s.map := rfl
@[simp] theorem State.popTurn_regBase : (s.popTurn).regBase = s.regBase := rfl
@[simp] theorem State.popTurn_host : (s.popTurn).host = s.host := rfl
@[simp] theorem State.popTurn_sched : (s.popTurn).sched = s.sched.tail := rfl
@[simp] theorem State.popTurn_reply : (s.popTurn).reply = s.reply := rfl
@[simp] theorem State.popTurn_reads : (s.popTurn).reads = s.reads := rfl
@[simp] theorem State.popTurn_draws : (s.popTurn).draws = s.draws := rfl

/-! `Status` -/

@[simp] theorem Status.onAccept_busy (st : Status) : (st.onAccept).busy = true := rfl
@[simp] theorem Status.onAccept_done (st : Status) : (st.onAccept).done = false := rfl
@[simp] theorem Status.onAccept_err (st : Status) : (st.onAccept).err = false := rfl
@[simp] theorem Status.onAccept_drop (st : Status) : (st.onAccept).drop = st.drop := rfl
@[simp] theorem Status.onAccept_ecode (st : Status) : (st.onAccept).ecode = 0#4 := rfl
@[simp] theorem Status.onComplete_busy (st : Status) (e : ErrCode) : (st.onComplete e).busy = false := rfl
@[simp] theorem Status.onComplete_done (st : Status) (e : ErrCode) : (st.onComplete e).done = true := rfl
@[simp] theorem Status.onComplete_err (st : Status) (e : ErrCode) : (st.onComplete e).err = decide (e ≠ .none) := rfl
@[simp] theorem Status.onComplete_drop (st : Status) (e : ErrCode) : (st.onComplete e).drop = st.drop := rfl
@[simp] theorem Status.onComplete_ecode (st : Status) (e : ErrCode) : (st.onComplete e).ecode = e.code := rfl
@[simp] theorem Status.onDrop_busy (st : Status) : (st.onDrop).busy = st.busy := rfl
@[simp] theorem Status.onDrop_done (st : Status) : (st.onDrop).done = st.done := rfl
@[simp] theorem Status.onDrop_err (st : Status) : (st.onDrop).err = st.err := rfl
@[simp] theorem Status.onDrop_drop (st : Status) : (st.onDrop).drop = true := rfl
@[simp] theorem Status.onDrop_ecode (st : Status) : (st.onDrop).ecode = st.ecode := rfl
@[simp] theorem Status.onHostWrite_busy (st : Status) (v : Word) : (st.onHostWrite v).busy = st.busy := by
  unfold Status.onHostWrite; split <;> rfl
@[simp] theorem Status.onHostWrite_done (st : Status) (v : Word) : (st.onHostWrite v).done = st.done := by
  unfold Status.onHostWrite; split <;> rfl
@[simp] theorem Status.onHostWrite_err (st : Status) (v : Word) : (st.onHostWrite v).err = st.err := by
  unfold Status.onHostWrite; split <;> rfl
@[simp] theorem Status.onHostWrite_ecode (st : Status) (v : Word) : (st.onHostWrite v).ecode = st.ecode := by
  unfold Status.onHostWrite; split <;> rfl

/-- A host write to STATUS clears DROP exactly when bit 3 is set. -/
@[simp] theorem Status.onHostWrite_drop (st : Status) (v : Word) :
    (st.onHostWrite v).drop = (st.drop && !v.getLsbD 3) := by
  unfold Status.onHostWrite; split <;> simp_all

/-! `State.writeReg`, `State.afterRead`, `State.hostWrite`, `State.hostRead`, `State.hostStore`: what they leave alone -/

@[simp] theorem State.writeReg_res (off : BitVec 5) (v : Word) : (s.writeReg off v).res = s.res := by
  unfold State.writeReg; split <;> first | rfl | (split <;> rfl)
@[simp] theorem State.writeReg_mem (off : BitVec 5) (v : Word) : (s.writeReg off v).mem = s.mem := by
  unfold State.writeReg; split <;> first | rfl | (split <;> rfl)
@[simp] theorem State.writeReg_map (off : BitVec 5) (v : Word) : (s.writeReg off v).map = s.map := by
  unfold State.writeReg; split <;> first | rfl | (split <;> rfl)
@[simp] theorem State.writeReg_regBase (off : BitVec 5) (v : Word) : (s.writeReg off v).regBase = s.regBase := by
  unfold State.writeReg; split <;> first | rfl | (split <;> rfl)
@[simp] theorem State.writeReg_host (off : BitVec 5) (v : Word) : (s.writeReg off v).host = s.host := by
  unfold State.writeReg; split <;> first | rfl | (split <;> rfl)
@[simp] theorem State.writeReg_sched (off : BitVec 5) (v : Word) : (s.writeReg off v).sched = s.sched := by
  unfold State.writeReg; split <;> first | rfl | (split <;> rfl)
@[simp] theorem State.writeReg_reply (off : BitVec 5) (v : Word) : (s.writeReg off v).reply = s.reply := by
  unfold State.writeReg; split <;> first | rfl | (split <;> rfl)
@[simp] theorem State.writeReg_reads (off : BitVec 5) (v : Word) : (s.writeReg off v).reads = s.reads := by
  unfold State.writeReg; split <;> first | rfl | (split <;> rfl)
@[simp] theorem State.writeReg_draws (off : BitVec 5) (v : Word) : (s.writeReg off v).draws = s.draws := by
  unfold State.writeReg; split <;> first | rfl | (split <;> rfl)
@[simp] theorem State.afterRead_opa (off : BitVec 5) : (s.afterRead off).opa = s.opa := by
  unfold State.afterRead; split <;> rfl
@[simp] theorem State.afterRead_opb (off : BitVec 5) : (s.afterRead off).opb = s.opb := by
  unfold State.afterRead; split <;> rfl
@[simp] theorem State.afterRead_res (off : BitVec 5) : (s.afterRead off).res = s.res := by
  unfold State.afterRead; split <;> rfl
@[simp] theorem State.afterRead_status (off : BitVec 5) : (s.afterRead off).status = s.status := by
  unfold State.afterRead; split <;> rfl
@[simp] theorem State.afterRead_engine (off : BitVec 5) : (s.afterRead off).engine = s.engine := by
  unfold State.afterRead; split <;> rfl
@[simp] theorem State.afterRead_mem (off : BitVec 5) : (s.afterRead off).mem = s.mem := by
  unfold State.afterRead; split <;> rfl
@[simp] theorem State.afterRead_map (off : BitVec 5) : (s.afterRead off).map = s.map := by
  unfold State.afterRead; split <;> rfl
@[simp] theorem State.afterRead_regBase (off : BitVec 5) : (s.afterRead off).regBase = s.regBase := by
  unfold State.afterRead; split <;> rfl
@[simp] theorem State.afterRead_host (off : BitVec 5) : (s.afterRead off).host = s.host := by
  unfold State.afterRead; split <;> rfl
@[simp] theorem State.afterRead_sched (off : BitVec 5) : (s.afterRead off).sched = s.sched := by
  unfold State.afterRead; split <;> rfl
@[simp] theorem State.afterRead_reply (off : BitVec 5) : (s.afterRead off).reply = s.reply := by
  unfold State.afterRead; split <;> rfl
@[simp] theorem State.afterRead_reads (off : BitVec 5) : (s.afterRead off).reads = s.reads := by
  unfold State.afterRead; split <;> rfl
@[simp] theorem State.hostWrite_res (addr : Word) (z : AccessSize) (v : Word) :
    (s.hostWrite addr z v).res = s.res := by
  unfold State.hostWrite; split <;> [skip; split] <;> simp
@[simp] theorem State.hostWrite_mem (addr : Word) (z : AccessSize) (v : Word) :
    (s.hostWrite addr z v).mem = s.mem := by
  unfold State.hostWrite; split <;> [skip; split] <;> simp
@[simp] theorem State.hostWrite_map (addr : Word) (z : AccessSize) (v : Word) :
    (s.hostWrite addr z v).map = s.map := by
  unfold State.hostWrite; split <;> [skip; split] <;> simp
@[simp] theorem State.hostWrite_regBase (addr : Word) (z : AccessSize) (v : Word) :
    (s.hostWrite addr z v).regBase = s.regBase := by
  unfold State.hostWrite; split <;> [skip; split] <;> simp
@[simp] theorem State.hostWrite_host (addr : Word) (z : AccessSize) (v : Word) :
    (s.hostWrite addr z v).host = s.host := by
  unfold State.hostWrite; split <;> [skip; split] <;> simp
@[simp] theorem State.hostWrite_sched (addr : Word) (z : AccessSize) (v : Word) :
    (s.hostWrite addr z v).sched = s.sched := by
  unfold State.hostWrite; split <;> [skip; split] <;> simp
@[simp] theorem State.hostWrite_reads (addr : Word) (z : AccessSize) (v : Word) :
    (s.hostWrite addr z v).reads = s.reads := by
  unfold State.hostWrite; split <;> [skip; split] <;> simp
@[simp] theorem State.hostWrite_draws (addr : Word) (z : AccessSize) (v : Word) :
    (s.hostWrite addr z v).draws = s.draws := by
  unfold State.hostWrite; split <;> [skip; split] <;> simp
@[simp] theorem State.hostRead_opa (addr : Word) (z : AccessSize) :
    (s.hostRead addr z).opa = s.opa := by
  unfold State.hostRead; split <;> [skip; split] <;> simp
@[simp] theorem State.hostRead_opb (addr : Word) (z : AccessSize) :
    (s.hostRead addr z).opb = s.opb := by
  unfold State.hostRead; split <;> [skip; split] <;> simp
@[simp] theorem State.hostRead_res (addr : Word) (z : AccessSize) :
    (s.hostRead addr z).res = s.res := by
  unfold State.hostRead; split <;> [skip; split] <;> simp
@[simp] theorem State.hostRead_status (addr : Word) (z : AccessSize) :
    (s.hostRead addr z).status = s.status := by
  unfold State.hostRead; split <;> [skip; split] <;> simp
@[simp] theorem State.hostRead_engine (addr : Word) (z : AccessSize) :
    (s.hostRead addr z).engine = s.engine := by
  unfold State.hostRead; split <;> [skip; split] <;> simp
@[simp] theorem State.hostRead_mem (addr : Word) (z : AccessSize) :
    (s.hostRead addr z).mem = s.mem := by
  unfold State.hostRead; split <;> [skip; split] <;> simp
@[simp] theorem State.hostRead_map (addr : Word) (z : AccessSize) :
    (s.hostRead addr z).map = s.map := by
  unfold State.hostRead; split <;> [skip; split] <;> simp
@[simp] theorem State.hostRead_regBase (addr : Word) (z : AccessSize) :
    (s.hostRead addr z).regBase = s.regBase := by
  unfold State.hostRead; split <;> [skip; split] <;> simp
@[simp] theorem State.hostRead_host (addr : Word) (z : AccessSize) :
    (s.hostRead addr z).host = s.host := by
  unfold State.hostRead; split <;> [skip; split] <;> simp
@[simp] theorem State.hostRead_sched (addr : Word) (z : AccessSize) :
    (s.hostRead addr z).sched = s.sched := by
  unfold State.hostRead; split <;> [skip; split] <;> simp
@[simp] theorem State.hostRead_reads (addr : Word) (z : AccessSize) :
    (s.hostRead addr z).reads = s.reads := by
  unfold State.hostRead; split <;> [skip; split] <;> simp
@[simp] theorem State.hostStore_opa (addr : Nat) (b : Byte) :
    (s.hostStore addr b).opa = s.opa := by
  unfold State.hostStore; split <;> simp
@[simp] theorem State.hostStore_opb (addr : Nat) (b : Byte) :
    (s.hostStore addr b).opb = s.opb := by
  unfold State.hostStore; split <;> simp
@[simp] theorem State.hostStore_res (addr : Nat) (b : Byte) :
    (s.hostStore addr b).res = s.res := by
  unfold State.hostStore; split <;> simp
@[simp] theorem State.hostStore_status (addr : Nat) (b : Byte) :
    (s.hostStore addr b).status = s.status := by
  unfold State.hostStore; split <;> simp
@[simp] theorem State.hostStore_engine (addr : Nat) (b : Byte) :
    (s.hostStore addr b).engine = s.engine := by
  unfold State.hostStore; split <;> simp
@[simp] theorem State.hostStore_map (addr : Nat) (b : Byte) :
    (s.hostStore addr b).map = s.map := by
  unfold State.hostStore; split <;> simp
@[simp] theorem State.hostStore_regBase (addr : Nat) (b : Byte) :
    (s.hostStore addr b).regBase = s.regBase := by
  unfold State.hostStore; split <;> simp
@[simp] theorem State.hostStore_host (addr : Nat) (b : Byte) :
    (s.hostStore addr b).host = s.host := by
  unfold State.hostStore; split <;> simp
@[simp] theorem State.hostStore_sched (addr : Nat) (b : Byte) :
    (s.hostStore addr b).sched = s.sched := by
  unfold State.hostStore; split <;> simp
@[simp] theorem State.hostStore_reads (addr : Nat) (b : Byte) :
    (s.hostStore addr b).reads = s.reads := by
  unfold State.hostStore; split <;> simp
@[simp] theorem State.hostStore_draws (addr : Nat) (b : Byte) :
    (s.hostStore addr b).draws = s.draws := by
  unfold State.hostStore; split <;> simp

end Sys2Proof.Machine
end

