-- ==== Sys2Proof/Laws/Memory.lean ====
section
/-! SUPPORT. Laws/Memory.lean: read after write, and that every memory operation keeps the canonical
form. -/

namespace Sys2Proof.Machine

theorem Memory.lookup_store_same (m : Memory) (a : Nat) (b : Byte) :
    Memory.lookup (Memory.store m a b) a = some b := by
  induction m with
  | nil => simp [Memory.store, Memory.lookup]
  | cons c m ih =>
    obtain ⟨k, v⟩ := c
    simp only [Memory.store]
    split
    · simp [Memory.lookup]
    · split
      · simp [Memory.lookup]
      · rename_i h
        simp [Memory.lookup, h, ih]

theorem Memory.lookup_store_other (m : Memory) {a x : Nat} (b : Byte) (h : x ≠ a) :
    Memory.lookup (Memory.store m a b) x = Memory.lookup m x := by
  induction m with
  | nil => simp [Memory.store, Memory.lookup, Ne.symm h]
  | cons c m ih =>
    obtain ⟨k, v⟩ := c
    simp only [Memory.store]
    split
    · simp [Memory.lookup, Ne.symm h]
    · split
      · rename_i _ hk
        subst hk
        simp [Memory.lookup, Ne.symm h]
      · simp only [Memory.lookup, ih]

/-- What is listed after a store was listed before it, or is the stored cell. -/
theorem Memory.mem_store {m : Memory} {a : Nat} {b : Byte} {c : Host.Cell}
    (h : c ∈ Memory.store m a b) : c = (a, b) ∨ c ∈ m := by
  induction m with
  | nil => simpa [Memory.store] using h
  | cons d m ih =>
    obtain ⟨k, v⟩ := d
    simp only [Memory.store] at h
    split at h
    · simpa using h
    · split at h
      · simp only [List.mem_cons] at h ⊢
        tauto
      · simp only [List.mem_cons] at h ⊢
        rcases h with h | h
        · exact .inr (.inl h)
        · rcases ih h with h | h
          · exact .inl h
          · exact .inr (.inr h)

/-- A store at an address of the buffer space keeps the canonical form. -/
theorem Memory.store_wellFormed {m : Memory} {a : Nat} {b : Byte} (ha : a < spaceSize)
    (hm : Memory.WellFormed m) : Memory.WellFormed (Memory.store m a b) := by
  constructor
  · obtain ⟨hp, -⟩ := hm
    induction m with
    | nil => simp [Memory.store]
    | cons c m ih =>
      obtain ⟨k, v⟩ := c
      rw [List.pairwise_cons] at hp
      simp only [Memory.store]
      split
      · rename_i hlt
        refine List.pairwise_cons.mpr ⟨?_, List.pairwise_cons.mpr hp⟩
        intro d hd
        rcases List.mem_cons.mp hd with rfl | hd
        · exact hlt
        · exact Nat.lt_trans hlt (hp.1 d hd)
      · split
        · rename_i hk
          subst hk
          exact List.pairwise_cons.mpr hp
        · refine List.pairwise_cons.mpr ⟨?_, ih hp.2⟩
          intro d hd
          rcases Memory.mem_store hd with rfl | hd
          · show k < a
            omega
          · exact hp.1 d hd
  · intro c hc
    rcases Memory.mem_store hc with rfl | hc
    · exact ha
    · exact hm.2 c hc

/-- Memory at reset is in canonical form. -/
theorem Memory.reset_wellFormed : Memory.WellFormed State.reset.mem := by
  simp [State.reset, Memory.WellFormed]

variable (s : State)

/-- A host byte store outside the register window: the stored byte, and every other byte as before. -/
theorem State.hostStore_byteAt {addr : Nat} {b : Byte}
    (h : s.windowOffset (BitVec.ofNat 32 addr) = none) (x : Nat) :
    (s.hostStore addr b).byteAt x = if x = addr then b else s.byteAt x := by
  unfold State.byteAt State.hostStore
  simp only [h]
  split
  · subst_vars
    simp [Memory.lookup_store_same]
  · rename_i hx
    simp [Memory.lookup_store_other _ _ hx]

/-- A host byte store changes memory by that one store, or not at all. -/
theorem State.hostStore_mem (addr : Nat) (b : Byte) :
    (s.hostStore addr b).mem = Memory.store s.mem addr b ∨ (s.hostStore addr b).mem = s.mem := by
  unfold State.hostStore
  split
  · exact .inl rfl
  · exact .inr rfl

end Sys2Proof.Machine
end

