-- ==== Sys2Proof/Laws/PerInstr.lean ====
section
/-! SUPPORT. Laws/PerInstr.lean: the family `Encoding` of statements about every command as syntax:
its word is legal, its own, and reads back through the table's numbering of bits. -/

namespace Sys2Proof.Laws.Encoding

/-- The word of a command is a legal command word, decodes to that command, and so do the bits that
spec/opcode_table.json gives its row. -/
def Statement (i : Instr) : Prop :=
  LegalCommand (encode i) ∧ decodeWord (encode i) = .ok i ∧
    decodeTableWord 32 (encode i).toNat = some i

theorem revb : Statement .revb := ⟨by decide, by decide, by decide⟩
theorem revw : Statement .revw := ⟨by decide, by decide, by decide⟩
theorem crc16 : Statement .crc16 := ⟨by decide, by decide, by decide⟩
theorem crc32 : Statement .crc32 := ⟨by decide, by decide, by decide⟩
theorem henc : Statement .henc := ⟨by decide, by decide, by decide⟩
theorem hdec : Statement .hdec := ⟨by decide, by decide, by decide⟩

end Sys2Proof.Laws.Encoding
end

