-- ==== Sys2Proof/Laws/Window.lean ====
section
/-! SUPPORT. Laws/Window.lean: the register window: where its addresses lie, and what an admitted
access of each register does. -/

namespace Sys2Proof.Machine

variable (s : State)

theorem windowAddr_getLsbD (base : BitVec 27) (off : BitVec 5) (i : Nat) :
    (windowAddr base off).getLsbD i = if i < 5 then off.getLsbD i else base.getLsbD (i - 5) :=
  BitVec.getLsbD_append

@[simp] theorem State.windowOffset_windowAddr (off : BitVec 5) :
    s.windowOffset (windowAddr s.regBase off) = some off := by
  have h1 : (windowAddr s.regBase off).extractLsb' 5 27 = s.regBase := by
    apply BitVec.eq_of_getLsbD_eq
    intro i hi
    simp [windowAddr_getLsbD, hi]
  have h2 : (windowAddr s.regBase off).extractLsb' 0 5 = off := by
    apply BitVec.eq_of_getLsbD_eq
    intro i hi
    simp [windowAddr_getLsbD, hi]
  simp [State.windowOffset, h1, h2]

@[simp] theorem regAtOffset_offset (r : Reg) : regAtOffset r.offset = some r := by
  cases r <;> rfl

theorem admittedAccess_offset (r : Reg) : AdmittedAccess r.offset .word := by
  cases r <;> exact ⟨rfl, rfl⟩

/-- `wr REG, imm` reaches its register. -/
theorem State.hostWrite_reg (r : Reg) (v : Word) :
    s.hostWrite (windowAddr s.regBase r.offset) .word v =
      (s.writeReg r.offset v).setReply .ack := by
  simp only [State.hostWrite, State.windowOffset_windowAddr, if_pos (admittedAccess_offset r)]

/-- `rd REG` reads its register. -/
theorem State.hostRead_reg (r : Reg) :
    s.hostRead (windowAddr s.regBase r.offset) .word =
      (s.afterRead r.offset).setReply (.data (s.readReg r.offset)) := by
  simp only [State.hostRead, State.windowOffset_windowAddr, if_pos (admittedAccess_offset r)]

/-- A host write to CMD is accepted when idle. -/
theorem State.writeReg_cmd_idle {w : Word} (h : s.status.busy = false) :
    s.writeReg Reg.cmd.offset w = s.accept w := by
  simp [State.writeReg, h]

/-- A host write to CMD, OPA or OPB is dropped when busy. -/
theorem State.writeReg_busy {r : Reg} {v : Word} (hr : r = .cmd ∨ r = .opa ∨ r = .opb)
    (h : s.status.busy = true) : s.writeReg r.offset v = s.dropWrite := by
  rcases hr with rfl | rfl | rfl <;> simp [State.writeReg, h]

theorem State.writeReg_opa_idle {v : Word} (h : s.status.busy = false) :
    s.writeReg Reg.opa.offset v = { s with opa := v } := by
  simp [State.writeReg, h]

theorem State.writeReg_opb_idle {v : Word} (h : s.status.busy = false) :
    s.writeReg Reg.opb.offset v = { s with opb := v } := by
  simp [State.writeReg, h]

theorem State.writeReg_status (v : Word) :
    s.writeReg Reg.status.offset v = { s with status := s.status.onHostWrite v } := by
  simp [State.writeReg]

theorem State.writeReg_resIgnored (v : Word) : s.writeReg Reg.res.offset v = s := by
  simp [State.writeReg]

/-- Everything a register write can do (rule R25). -/
theorem State.writeReg_cases (off : BitVec 5) (v : Word) :
    s.writeReg off v = s ∨
    (s.status.busy = true ∧ s.writeReg off v = s.dropWrite) ∨
    (s.status.busy = false ∧ s.writeReg off v = s.accept v) ∨
    s.writeReg off v = { s with status := s.status.onHostWrite v } ∨
    (s.status.busy = false ∧ s.writeReg off v = { s with opa := v }) ∨
    (s.status.busy = false ∧ s.writeReg off v = { s with opb := v }) := by
  unfold State.writeReg
  cases h : s.status.busy <;> split <;> simp

/-- Everything a host write can do: an answer, after one of the register writes or nothing. -/
theorem State.hostWrite_cases (addr : Word) (z : AccessSize) (v : Word) :
    ∃ r, s.hostWrite addr z v = s.setReply r ∨
      ∃ off, s.hostWrite addr z v = (s.writeReg off v).setReply r := by
  unfold State.hostWrite
  split
  · exact ⟨_, .inl rfl⟩
  · split
    · exact ⟨_, .inr ⟨_, rfl⟩⟩
    · exact ⟨_, .inl rfl⟩

/-- An address in the window is the window address of its offset. -/
theorem State.windowOffset_eq_some {s : State} {addr : Word} {off : BitVec 5}
    (h : s.windowOffset addr = some off) : addr = windowAddr s.regBase off := by
  unfold State.windowOffset at h
  split at h
  · rename_i hb
    cases h
    apply BitVec.eq_of_getLsbD_eq
    intro i hi
    rw [windowAddr_getLsbD, ← hb]
    split
    · simp [*]
    · simp only [BitVec.getLsbD_extractLsb']
      rw [decide_eq_true (by omega), show 5 + (i - 5) = i by omega, Bool.true_and]
  · cases h

/-- A register write changes DROP only as a STATUS write with bit 3 set, or as a dropped write. -/
theorem State.writeReg_drop_cases {s : State} {off : BitVec 5} {v : Word}
    (h : (s.writeReg off v).status.drop ≠ s.status.drop) :
    (regAtOffset off = some .status ∧ v.getLsbD 3 = true ∧ (s.writeReg off v).status.drop = false) ∨
    (∃ r, (r = .cmd ∨ r = .opa ∨ r = .opb) ∧ regAtOffset off = some r ∧ s.status.busy = true ∧
      (s.writeReg off v).status.drop = true) := by
  unfold State.writeReg at h ⊢
  split at h <;> rename_i hr <;> simp only [hr]
  · split at h <;> simp_all
  · left
    cases hv : v.getLsbD 3 <;> simp_all
  · split at h <;> simp_all
  · split at h <;> simp_all
  · exact absurd rfl h
  · exact absurd rfl h
/-- Everything a register write can do, with the register it does it to. -/
theorem State.writeReg_inv (off : BitVec 5) (v : Word) :
    s.writeReg off v = s ∨
    (∃ r, (r = .cmd ∨ r = .opa ∨ r = .opb) ∧ off = Reg.offset r ∧ s.status.busy = true ∧
      s.writeReg off v = s.dropWrite) ∨
    (off = Reg.cmd.offset ∧ s.status.busy = false ∧ s.writeReg off v = s.accept v) ∨
    (off = Reg.status.offset ∧
      s.writeReg off v = { s with status := s.status.onHostWrite v }) ∨
    (off = Reg.opa.offset ∧ s.status.busy = false ∧ s.writeReg off v = { s with opa := v }) ∨
    (off = Reg.opb.offset ∧ s.status.busy = false ∧ s.writeReg off v = { s with opb := v }) := by
  have inWindow : regAtOffset off = none ∨ ∃ r, off = Reg.offset r := by
    cases h : regAtOffset off with
    | none => exact .inl rfl
    | some r =>
      refine .inr ⟨r, ?_⟩
      revert off
      cases r <;> decide
  rcases inWindow with h | ⟨r, rfl⟩
  · exact .inl (by simp [State.writeReg, h])
  · cases hb : s.status.busy with
    | true =>
      cases r with
      | cmd => exact .inr (.inl ⟨.cmd, by simp, rfl, rfl, s.writeReg_busy (by simp) hb⟩)
      | opa => exact .inr (.inl ⟨.opa, by simp, rfl, rfl, s.writeReg_busy (by simp) hb⟩)
      | opb => exact .inr (.inl ⟨.opb, by simp, rfl, rfl, s.writeReg_busy (by simp) hb⟩)
      | status => exact .inr (.inr (.inr (.inl ⟨rfl, s.writeReg_status v⟩)))
      | res => exact .inl (s.writeReg_resIgnored v)
    | false =>
      cases r with
      | cmd => exact .inr (.inr (.inl ⟨rfl, rfl, s.writeReg_cmd_idle hb⟩))
      | opa => exact .inr (.inr (.inr (.inr (.inl ⟨rfl, rfl, s.writeReg_opa_idle hb⟩))))
      | opb => exact .inr (.inr (.inr (.inr (.inr ⟨rfl, rfl, s.writeReg_opb_idle hb⟩))))
      | status => exact .inr (.inr (.inr (.inl ⟨rfl, s.writeReg_status v⟩)))
      | res => exact .inl (s.writeReg_resIgnored v)

/-- Everything a host write can do, with the offset it does it at. -/
theorem State.hostWrite_inv (addr : Word) (z : AccessSize) (v : Word) :
    (∃ r, s.hostWrite addr z v = s.setReply r) ∨
    ∃ off, addr = windowAddr s.regBase off ∧ z = .word ∧
      s.hostWrite addr z v = (s.writeReg off v).setReply .ack := by
  unfold State.hostWrite
  split
  · exact .inl ⟨_, rfl⟩
  · split
    · exact .inr ⟨_, State.windowOffset_eq_some ‹_›, And.left ‹_›, rfl⟩
    · exact .inl ⟨_, rfl⟩

end Sys2Proof.Machine
end

