-- ==== Sys2Proof/Laws/Steps.lean ====
section
/-! SUPPORT. Laws/Steps.lean: what a step can do, once: the engine steps of each command by the state
of the engine, one case list for `exec`, one for the engine, one for the host, one for the step of
the system; and runs. -/

namespace Sys2Proof.Machine

variable {s t : State}

/-! ### Operands of an accepted command -/

theorem State.operandA_pending {w a n : Word} (h : s.engine = .pending w a n) :
    s.operandA = a := by
  simp [State.operandA, h]

theorem State.operandN_pending {w a n : Word} (h : s.engine = .pending w a n) :
    s.operandN = n := by
  simp [State.operandN, h]

theorem State.operandA_crc {k : CrcKind} {a n c : Word} {i : BitVec 33}
    (h : s.engine = .crc k a n i c) : s.operandA = a := by
  simp [State.operandA, h]

theorem State.operandN_crc {k : CrcKind} {a n c : Word} {i : BitVec 33}
    (h : s.engine = .crc k a n i c) : s.operandN = n := by
  simp [State.operandN, h]

/-! ### The engine steps of a CRC command (rule R59) -/

theorem exec_instr (k : CrcKind) (s : State) : exec k.instr s = crcStep k s := by
  cases k <;> rfl

theorem crcStep_pending {k : CrcKind} {w a n : Word} (h : s.engine = .pending w a n) :
    crcStep k s = .next (crcStart k a n s) := by
  simp [crcStep, h]

theorem crcStart_zero {k : CrcKind} {a n : Word} (h : a = 0#32 ∨ n = 0#32) :
    crcStart k a n s = s.completeOk 0#32 := by
  simp only [crcStart, if_pos h]

theorem crcStart_range {k : CrcKind} {a n : Word} (ha : a ≠ 0#32) (hn : n ≠ 0#32)
    (h : OutOfRange a n) : crcStart k a n s = s.raiseError .range := by
  simp only [crcStart, if_neg (not_or.mpr ⟨ha, hn⟩), if_pos h]

theorem crcStart_begins {k : CrcKind} {a n : Word} (ha : a ≠ 0#32) (hn : n ≠ 0#32)
    (h : ¬ OutOfRange a n) : crcStart k a n s = s.setEngine (.crc k a n 0#33 k.seed) := by
  simp only [crcStart, if_neg (not_or.mpr ⟨ha, hn⟩), if_neg h]

theorem CrcKind.le_total (k : CrcKind) (n : Nat) : n ≤ k.total n := by
  cases k
  · exact Nat.le_refl n
  · exact Nat.le_max_left n _

section
variable {j k : CrcKind} {a n c : Word} {i : BitVec 33}

theorem crcStep_read (h : s.engine = .crc j a n i c) (hi : i.toNat < n.toNat)
    (hm : s.MemOk (a.toNat + i.toNat)) :
    crcStep k s = .next ((s.logRead (a.toNat + i.toNat)).setEngine
      (.crc k a n (i + 1#33) (k.update c (s.byteAt (a.toNat + i.toNat))))) := by
  have hm' : s.kindAt (a.toNat + i.toNat) = .memory := hm
  simp only [crcStep, h, if_pos (Nat.lt_of_lt_of_le hi (k.le_total _)), crcByte, if_pos hi, hm']

theorem crcStep_busError (h : s.engine = .crc j a n i c) (hi : i.toNat < n.toNat)
    (hm : s.kindAt (a.toNat + i.toNat) = .busError) :
    crcStep k s = .next ((s.logRead (a.toNat + i.toNat)).raiseError .busError) := by
  simp only [crcStep, h, if_pos (Nat.lt_of_lt_of_le hi (k.le_total _)), crcByte, if_pos hi, hm]

theorem crcStep_silent (h : s.engine = .crc j a n i c) (hi : i.toNat < n.toNat)
    (hm : s.kindAt (a.toNat + i.toNat) = .silent) : crcStep k s = .next s := by
  simp only [crcStep, h, if_pos (Nat.lt_of_lt_of_le hi (k.le_total _)), crcByte, if_pos hi, hm]

theorem crcStep_sideEffect (h : s.engine = .crc j a n i c) (hi : i.toNat < n.toNat)
    (hm : s.kindAt (a.toNat + i.toNat) = .sideEffect) :
    crcStep k s = .refused (.sideEffectBuffer (a.toNat + i.toNat)) := by
  simp only [crcStep, h, if_pos (Nat.lt_of_lt_of_le hi (k.le_total _)), crcByte, if_pos hi, hm]

theorem crcStep_pad (h : s.engine = .crc j a n i c) (hn : n.toNat ≤ i.toNat)
    (hi : i.toNat < k.total n.toNat) :
    crcStep k s = .next (s.setEngine (.crc k a n (i + 1#33) (k.update c 0x00#8))) := by
  simp only [crcStep, h, if_pos hi, crcByte, if_neg (Nat.not_lt.mpr hn)]

theorem crcStep_finish (h : s.engine = .crc j a n i c) (hi : k.total n.toNat ≤ i.toNat) :
    crcStep k s = .next (s.completeOk (k.finish c)) := by
  simp only [crcStep, h, if_neg (Nat.not_lt.mpr hi)]

end

/-! ### What the engine can do -/

/-- Everything a CRC's byte step can do. -/
theorem crcByte_cases {k : CrcKind} {a n c : Word} {i : BitVec 33}
    (h : crcByte k a n i c s = .next t) :
    (i.toNat < n.toNat ∧ s.MemOk (a.toNat + i.toNat) ∧
      t = (s.logRead (a.toNat + i.toNat)).setEngine
        (.crc k a n (i + 1#33) (k.update c (s.byteAt (a.toNat + i.toNat))))) ∨
    (i.toNat < n.toNat ∧ s.kindAt (a.toNat + i.toNat) = .busError ∧
      t = (s.logRead (a.toNat + i.toNat)).raiseError .busError) ∨
    (i.toNat < n.toNat ∧ s.kindAt (a.toNat + i.toNat) = .silent ∧ t = s) ∨
    (n.toNat ≤ i.toNat ∧ t = s.setEngine (.crc k a n (i + 1#33) (k.update c 0x00#8))) := by
  unfold crcByte at h
  split at h
  · rename_i hi
    split at h
    all_goals cases h
    · exact .inl ⟨hi, ‹_›, rfl⟩
    · exact .inr (.inl ⟨hi, ‹_›, rfl⟩)
    · exact .inr (.inr (.inl ⟨hi, ‹_›, rfl⟩))
  · cases h
    exact .inr (.inr (.inr ⟨by omega, rfl⟩))

/-- A CRC's byte step is no fault, and is refused only at a read with a side effect. -/
theorem crcByte_stops {k : CrcKind} {a n c : Word} {i : BitVec 33} :
    (∀ f, crcByte k a n i c s ≠ .fault f) ∧
    ∀ r, crcByte k a n i c s = .refused r →
      i.toNat < n.toNat ∧ s.kindAt (a.toNat + i.toNat) = .sideEffect ∧
        r = .sideEffectBuffer (a.toNat + i.toNat) := by
  unfold crcByte
  split
  · cases hk : s.kindAt (a.toNat + i.toNat) <;> simp_all [eq_comm]
  · simp

/-- The engine step of a CRC command stops only in its byte step. -/
theorem crcStep_stops {k : CrcKind} :
    (∀ f, crcStep k s ≠ .fault f) ∧
    ∀ r, crcStep k s = .refused r → ∃ j a n c i, s.engine = .crc j a n i c ∧
      crcByte k a n i c s = .refused r := by
  unfold crcStep
  cases he : s.engine with
  | idle => simp
  | pending => simp
  | crc j a n i c =>
    dsimp only
    split
    · exact ⟨crcByte_stops.1, fun r h => ⟨j, a, n, c, i, rfl, h⟩⟩
    · simp

/-- Everything a CRC's start step can do. -/
theorem crcStart_cases (k : CrcKind) (a n : Word) (s : State) :
    ((a = 0#32 ∨ n = 0#32) ∧ crcStart k a n s = s.completeOk 0#32) ∨
    (a ≠ 0#32 ∧ n ≠ 0#32 ∧ OutOfRange a n ∧ crcStart k a n s = s.raiseError .range) ∨
    (a ≠ 0#32 ∧ n ≠ 0#32 ∧ ¬ OutOfRange a n ∧
      crcStart k a n s = s.setEngine (.crc k a n 0#33 k.seed)) := by
  by_cases h : a = 0#32 ∨ n = 0#32
  · exact .inl ⟨h, crcStart_zero h⟩
  · obtain ⟨ha, hn⟩ := not_or.mp h
    by_cases hr : OutOfRange a n
    · exact .inr (.inl ⟨ha, hn, hr, crcStart_range ha hn hr⟩)
    · exact .inr (.inr ⟨ha, hn, hr, crcStart_begins ha hn hr⟩)

/-- Everything a command's engine step can do when it answers a next state: complete without error,
raise an error (after a failing read, or without a read), move the engine of a CRC on (after a read,
or without one), or, at a read never answered, nothing. -/
theorem exec_cases {i : Instr} (h : exec i s = .next t) :
    (∃ v, t = s.completeOk v) ∨ t = s.raiseError .range ∨
    (∃ x, t = (s.logRead x).raiseError .busError) ∨
    (∃ k a n j c, t = s.setEngine (.crc k a n j c)) ∨
    (∃ x k a n j c, t = (s.logRead x).setEngine (.crc k a n j c)) ∨ t = s := by
  have crc : ∀ k, crcStep k s = .next t →
      (∃ v, t = s.completeOk v) ∨ t = s.raiseError .range ∨
      (∃ x, t = (s.logRead x).raiseError .busError) ∨
      (∃ k a n j c, t = s.setEngine (.crc k a n j c)) ∨
      (∃ x k a n j c, t = (s.logRead x).setEngine (.crc k a n j c)) ∨ t = s := by
    intro k h
    have start : ∀ a n, Host.Outcome.next (crcStart k a n s) =
          (.next t : Host.Outcome State Fault Refusal) →
        (∃ v, t = s.completeOk v) ∨ t = s.raiseError .range ∨
        (∃ x, t = (s.logRead x).raiseError .busError) ∨
        (∃ k a n j c, t = s.setEngine (.crc k a n j c)) ∨
        (∃ x k a n j c, t = (s.logRead x).setEngine (.crc k a n j c)) ∨ t = s := by
      intro a n h
      cases h
      rcases crcStart_cases k a n s with ⟨-, e⟩ | ⟨-, -, -, e⟩ | ⟨-, -, -, e⟩
      · exact .inl ⟨_, e⟩
      · exact .inr (.inl e)
      · exact .inr (.inr (.inr (.inl ⟨_, _, _, _, _, e⟩)))
    unfold crcStep at h
    split at h
    · split at h
      · rcases crcByte_cases h with ⟨-, -, e⟩ | ⟨-, -, e⟩ | ⟨-, -, e⟩ | ⟨-, e⟩
        · exact .inr (.inr (.inr (.inr (.inl ⟨_, _, _, _, _, _, e⟩))))
        · exact .inr (.inr (.inl ⟨_, e⟩))
        · exact .inr (.inr (.inr (.inr (.inr e))))
        · exact .inr (.inr (.inr (.inl ⟨_, _, _, _, _, e⟩)))
      · cases h
        exact .inl ⟨_, rfl⟩
    · exact start _ _ h
    · exact start _ _ h
  cases i with
  | revb => cases h; exact .inl ⟨_, rfl⟩
  | revw => cases h; exact .inl ⟨_, rfl⟩
  | henc => cases h; exact .inl ⟨_, rfl⟩
  | hdec => cases h; exact .inl ⟨_, rfl⟩
  | crc16 => exact crc .c16 h
  | crc32 => exact crc .c32 h

/-- The engine's step, by the state of the engine. -/
theorem engineStep_idle (h : s.engine = .idle) : engineStep s = .next s := by
  simp [engineStep, h]

theorem engineStep_pending {w a n : Word} {i : Instr} (h : s.engine = .pending w a n)
    (hd : decodeWord w = .ok i) : engineStep s = exec i s := by
  simp [engineStep, h, hd]

theorem engineStep_illegal {w a n : Word} {e : DecodeError} (h : s.engine = .pending w a n)
    (hd : decodeWord w = .error e) : engineStep s = .next (s.raiseError .illegalCmd) := by
  simp [engineStep, h, hd]

theorem engineStep_crc {k : CrcKind} {a n c : Word} {i : BitVec 33}
    (h : s.engine = .crc k a n i c) : engineStep s = crcStep k s := by
  simp [engineStep, h, exec_instr]

/-! ### What a step of the system can do -/

/-- Every step is a host step, an engine step or a reset, after the turn has left the schedule. -/
theorem step_cases (h : step s = .next t) :
    (s.mover = .host ∧ hostStep s.popTurn = .next t) ∨
    (s.mover = .engine ∧ engineStep s.popTurn = .next t) ∨
    (s.mover = .reset ∧ t = s.popTurn.assertReset) := by
  unfold step systemStep at h
  split at h
  · exact .inl ⟨‹_›, h⟩
  · exact .inr (.inl ⟨‹_›, h⟩)
  · cases h
    exact .inr (.inr ⟨‹_›, rfl⟩)

theorem step_host (h : s.mover = .host) : step s = hostStep s.popTurn := by
  simp [step, systemStep, h]

theorem step_engine (h : s.mover = .engine) : step s = engineStep s.popTurn := by
  simp [step, systemStep, h]

theorem step_reset (h : s.mover = .reset) : step s = .next s.popTurn.assertReset := by
  simp [step, systemStep, h]

theorem State.mover_of_sched {u : Turn} {q : List Turn} (h : s.sched = u :: q) :
    s.mover = u := by
  simp [State.mover, h]

theorem State.mover_busy (hs : s.sched = []) (he : s.engine ≠ .idle) : s.mover = .engine := by
  unfold State.mover
  rw [hs]
  cases h : s.engine with
  | idle => exact absurd h he
  | pending => rfl
  | crc => rfl

theorem State.mover_idle (hs : s.sched = []) (he : s.engine = .idle) : s.mover = .host := by
  simp [State.mover, hs, he]

theorem State.popTurn_nil (hs : s.sched = []) : s.popTurn = s := by
  cases s
  simp_all [State.popTurn]

/-- Everything a host step can do. -/
theorem hostStep_cases (h : hostStep s = .next t) :
    (s.host = [] ∧ t = s) ∨
    (∃ addr z v p, s.host = .write addr z v :: p ∧ t = (s.setHost p).hostWrite addr z v) ∨
    (∃ addr z p, s.host = .read addr z :: p ∧ t = (s.setHost p).hostRead addr z) ∨
    (∃ p, s.host = .poll :: p ∧
      t = (s.setHost (if s.status.busy then .poll :: p else p)).setReply
        (.data s.status.word)) ∨
    (∃ addr p, s.host = .mem addr [] :: p ∧ t = s.setHost p) ∨
    (∃ addr b bs p, s.host = .mem addr (b :: bs) :: p ∧ addr < spaceSize ∧
      t = (s.setHost (.mem (addr + 1) bs :: p)).hostStore addr b) := by
  unfold hostStep at h
  split at h
  · cases h; exact .inl ⟨‹_›, rfl⟩
  · cases h; exact .inr (.inl ⟨_, _, _, _, ‹_›, rfl⟩)
  · cases h; exact .inr (.inr (.inl ⟨_, _, _, ‹_›, rfl⟩))
  · cases h; exact .inr (.inr (.inr (.inl ⟨_, ‹_›, rfl⟩)))
  · cases h; exact .inr (.inr (.inr (.inr (.inl ⟨_, _, ‹_›, rfl⟩))))
  · split at h
    · cases h; exact .inr (.inr (.inr (.inr (.inr ⟨_, _, _, _, ‹_›, ‹_›, rfl⟩))))
    · cases h

/-- A host step is never refused, and is a fault only at a store above the buffer space. -/
theorem hostStep_stops :
    (∀ r, hostStep s ≠ .refused r) ∧
    ∀ f, hostStep s = .fault f → ∃ addr b bs p, s.host = .mem addr (b :: bs) :: p ∧
      spaceSize ≤ addr ∧ f = .outsideBufferSpace addr := by
  unfold hostStep
  split
  case h_6 addr b bs p hh =>
    by_cases ha : addr < spaceSize
    · simp [ha]
    · simp only [if_neg ha]
      refine ⟨by simp, fun f h => ?_⟩
      cases h
      exact ⟨addr, b, bs, p, hh, Nat.not_lt.mp ha, rfl⟩
  all_goals simp

/-! ### Runs -/

theorem runSteps_succ {k : Nat} (h : step s = .next t) : runSteps (k + 1) s = runSteps k t := by
  simp [runSteps, h]

/-- A run of `j + k` steps is a run of `j` and then one of `k`. -/
theorem runSteps_add {j k : Nat} (h : runSteps j s = .next t) :
    runSteps (j + k) s = runSteps k t := by
  induction j generalizing s with
  | zero =>
    cases h
    simp
  | succ j ih =>
    rw [Nat.succ_add]
    simp only [runSteps] at h ⊢
    split at h
    · exact ih h
    · cases h
    · cases h

/-! ### A host statement of rule R43 on a register -/

/-- `wr REG, imm` reaches its register and is acknowledged. -/
theorem step_wr {s : State} {r : Reg} {v : Word} {p : List HostStmt} (hm : s.mover = .host)
    (hh : s.host = wr s.regBase r v :: p) :
    step s = .next (((s.popTurn.setHost p).writeReg r.offset v).setReply .ack) := by
  rw [step_host hm]
  simp only [hostStep, State.popTurn_host, hh, wr]
  congr 1
  have h := State.hostWrite_reg (s.popTurn.setHost p) r v
  simpa only [State.setHost_regBase, State.popTurn_regBase] using h

/-- `rd REG` is answered with what the register reads as. -/
theorem step_rd {s : State} {r : Reg} {p : List HostStmt} (hm : s.mover = .host)
    (hh : s.host = rd s.regBase r :: p) :
    step s = .next (((s.popTurn.setHost p).afterRead r.offset).setReply
      (.data ((s.popTurn.setHost p).readReg r.offset))) := by
  rw [step_host hm]
  simp only [hostStep, State.popTurn_host, hh, rd]
  congr 1
  have h := State.hostRead_reg (s.popTurn.setHost p) r
  simpa only [State.setHost_regBase, State.popTurn_regBase] using h

end Sys2Proof.Machine
end

