-- ==== Sys2Proof/Tests/Slice0.lean ====
section
/-! SUPPORT. Tests/Slice0.lean: the model's own tests. The expected values are those of
spec/95_test_vectors.md and of the rules' own examples. Each `test_hyp_<Name>` shows a concrete
state and operands that meet the hypotheses of `Obligations.<Name>`, clause by clause. -/

namespace Sys2Proof.Tests

open Sys2Proof.Machine

/-! ### Benches -/

/-- An idle block beside a small platform: memory at 0x2000 to 0x2002 and at 0xFFFFFFFF, one address
with a side effect (0x3000), one that never answers (0x4000), bus errors elsewhere; registers at
0x40000000; `RES` = 0xDEADBEEF, as in section 2.8 of the vectors. -/
def bench : State where
  opa := 0x00000000#32
  opb := 0x00000000#32
  res := 0xDEADBEEF#32
  status := Status.reset
  engine := .idle
  mem := [(0x2000, 0x12#8), (0x2001, 0x34#8), (0x2002, 0x56#8)]
  map := [⟨0x2000, 0x2002, .memory⟩, ⟨0xFFFFFFFF, 0xFFFFFFFF, .memory⟩,
    ⟨0x3000, 0x3000, .sideEffect⟩, ⟨0x4000, 0x4000, .silent⟩]
  regBase := 0x2000000#27
  host := []
  sched := []
  reply := .none
  reads := []
  draws := 0

/-- The same with no address whose reads have side effects. -/
def tameBench : State := { bench with map := [⟨0x2000, 0x2002, .memory⟩] }

/-- `s` with an engine that runs `e` on the operands `a` and `n`. -/
def runningOn (s : State) (e : Engine) (a n : Word) : State :=
  { s with opa := a, opb := n, engine := e, status := ⟨true, false, false, false, 0#4⟩ }

/-- The bench with a command just accepted. -/
def accepted (w a n : Word) : State := runningOn bench (.pending w a n) a n

/-- The bench with a CRC in progress. -/
def inCrc (k : CrcKind) (a n : Word) (i : BitVec 33) (c : Word) : State :=
  runningOn bench (.crc k a n i c) a n

/-- `s` with the host's turn next and one statement to execute. -/
def hostDoes (s : State) (x : HostStmt) : State := { s with host := [x], sched := [.host] }

/-- `s` with these turns ahead. -/
def turns (s : State) (q : List Turn) : State := { s with sched := q }

/-- RES and STATUS after one step. -/
def outcomeOf (s : State) : Option (Word × Word) :=
  (nextState? (step s)).map fun t => (t.res, t.status.word)

/-- The answer to the host, and STATUS, after one step. -/
def replyOf (s : State) : Option (HostReply × Word) :=
  (nextState? (step s)).map fun t => (t.reply, t.status.word)

/-! ### Well-formedness -/

/-- Rule R39: a word is refused for `RSV`, for `OP` 0x0 and for `OP` 0x7 or more. -/
theorem test_wf_word : LegalCommand 0x00000001#32 ∧ LegalCommand 0x00000006#32 ∧
    ¬ LegalCommand 0x00000013#32 ∧ ¬ LegalCommand 0x80000001#32 ∧
    ¬ LegalCommand 0x00000000#32 ∧ ¬ LegalCommand 0x00000007#32 := by decide

/-- A region must not run backwards and must end inside the buffer space. -/
theorem test_wf_region : Region.WellFormed ⟨0x2000, 0xFFFFFFFF, .memory⟩ ∧
    ¬ Region.WellFormed ⟨2, 1, .memory⟩ ∧ ¬ Region.WellFormed ⟨0, 0x100000000, .memory⟩ := by decide

/-- Memory lists rising addresses of the buffer space, none twice. -/
theorem test_wf_memory : Memory.WellFormed bench.mem ∧
    ¬ Memory.WellFormed [(2, 0#8), (1, 0#8)] ∧ ¬ Memory.WellFormed [(1, 0#8), (1, 0#8)] ∧
    ¬ Memory.WellFormed [(0x100000000, 0#8)] := by decide

/-! ### Decoding: `RRRRRRRRRRRRRRRRRRRRRRRRRRRROOOO` (rule R38), written out bit by bit -/

theorem test_decode_revb : decodeWord 0b00000000000000000000000000000001#32 = .ok .revb := by decide
theorem test_decode_revw : decodeWord 0b00000000000000000000000000000010#32 = .ok .revw := by decide
theorem test_decode_crc16 : decodeWord 0b00000000000000000000000000000011#32 = .ok .crc16 := by decide
theorem test_decode_crc32 : decodeWord 0b00000000000000000000000000000100#32 = .ok .crc32 := by decide
theorem test_decode_henc : decodeWord 0b00000000000000000000000000000101#32 = .ok .henc := by decide
theorem test_decode_hdec : decodeWord 0b00000000000000000000000000000110#32 = .ok .hdec := by decide

/-- Rule R40, vectors E1 to E5. -/
theorem test_decode_illegal :
    decodeWord 0x00000000#32 = .error .reservedOp ∧ decodeWord 0x00000007#32 = .error .reservedOp ∧
    decodeWord 0x0000000F#32 = .error .reservedOp ∧ decodeWord 0x00000013#32 = .error .reservedBits ∧
    decodeWord 0x80000001#32 = .error .reservedBits ∧ decodeBytes [1#8, 0#8, 0#8] = .error .truncated := by
  decide

/-- The table's numbering of bits, and the first step after reset. -/
theorem test_decode_table : decodeTableWord 32 0x00000004 = some .crc32 ∧
    decodeTableWord 32 0x00000014 = none ∧
    outcomeOf (State.reset.withFetchWord 32 0x00000007) = some (0x00000000#32, 0x00000016#32) ∧
    outcomeOf (State.reset.withFetchWord 32 0x00000006) = some (0x00000000#32, 0x00000002#32) := by
  decide

/-! ### The commands, one step each -/

/-- Section 2.1 and E18. -/
theorem test_revb :
    outcomeOf (accepted 1#32 0x00000031#32 0#32) = some (0x0000008C#32, 0x00000002#32) ∧
    outcomeOf (accepted 1#32 0xFFFFFF31#32 0xFFFFFFFF#32) = some (0x0000008C#32, 0x00000002#32) ∧
    outcomeOf (accepted 1#32 0x00000050#32 0#32) = some (0x0000000A#32, 0x00000002#32) := by decide

/-- Section 2.1 and E19. -/
theorem test_revw :
    outcomeOf (accepted 2#32 0x0000A5C3#32 0#32) = some (0x0000C3A5#32, 0x00000002#32) ∧
    outcomeOf (accepted 2#32 0xABCD1234#32 7#32) = some (0x00002C48#32, 0x00000002#32) := by decide

/-- Section 2.2. -/
theorem test_crc16_values : crc16Value [0x01#8] = 0x1021#16 ∧ crc16Value [0xFF#8] = 0x1EF0#16 ∧
    crc16Value [0x12#8, 0x34#8] = 0x13C6#16 := by decide +kernel

/-- The check value of section 2.2. -/
theorem test_crc16_check : crc16Value [0x31#8, 0x32#8, 0x33#8, 0x34#8, 0x35#8, 0x36#8, 0x37#8, 0x38#8,
    0x39#8] = 0x31C3#16 := by decide +kernel

/-- Section 2.4, with the padding of one and of three bytes. -/
theorem test_crc32_values : crc32Value [0x00#8] = 0x38FB2284#32 ∧
    crc32Value [0x12#8, 0x34#8, 0x56#8] = 0xE6C9858B#32 ∧
    crc32Value [0xFF#8, 0xFF#8, 0xFF#8, 0xFF#8] = 0xFFFFFFFF#32 ∧
    crc32Value [0x00#8, 0x00#8, 0x00#8, 0x00#8, 0x00#8] = 0xB8EF4463#32 := by decide +kernel

/-- The check value of section 2.4. -/
theorem test_crc32_check : crc32Value [0x31#8, 0x32#8, 0x33#8, 0x34#8, 0x35#8, 0x36#8, 0x37#8, 0x38#8,
    0x39#8] = 0xFC891918#32 := by decide +kernel

/-- E6, E7, E9, E10 and E1: null, empty, null before RANGE, RANGE, illegal. -/
theorem test_crc_start :
    outcomeOf (accepted 3#32 0#32 5#32) = some (0#32, 0x00000002#32) ∧
    outcomeOf (accepted 3#32 0x2000#32 0#32) = some (0#32, 0x00000002#32) ∧
    outcomeOf (accepted 4#32 0#32 0xFFFFFFFF#32) = some (0#32, 0x00000002#32) ∧
    outcomeOf (accepted 4#32 0xFFFFFFFF#32 2#32) = some (0xDEADBEEF#32, 0x00000026#32) ∧
    outcomeOf (accepted 0#32 1#32 2#32) = some (0xDEADBEEF#32, 0x00000016#32) := by decide

/-- E15's last two steps: the second byte, then the finish. -/
theorem test_crc16_steps :
    (nextState? (step (inCrc .c16 0x2000#32 2#32 1#33 0x00000373#32))).map (·.reads) = some [0x2001] ∧
    outcomeOf (inCrc .c16 0x2000#32 2#32 2#33 0x000013C6#32) = some (0x000013C6#32, 0x00000002#32) := by
  decide

/-- E13's failing read and E16's first pad byte, which is not read. -/
theorem test_crc32_steps :
    (nextState? (step (inCrc .c16 0x2000#32 4#32 3#33 0#32))).map
      (fun t => (t.res, t.status.word, t.reads)) = some (0xDEADBEEF#32, 0x00000036#32, [0x2003]) ∧
    (nextState? (step (inCrc .c32 0x2002#32 1#32 1#33 0#32))).map (fun t => (t.engine, t.reads)) =
      some (.crc .c32 0x2002#32 1#32 2#33 0#32, []) := by decide

/-- Section 2.5. -/
theorem test_henc :
    outcomeOf (accepted 5#32 0x0001000A#32 0xFFFFFFFB#32) = some (0x000A5018#32, 0x00000002#32) ∧
    outcomeOf (accepted 5#32 0x000005A5#32 4#32) = some (0x05A5A5A1#32, 0x00000002#32) ∧
    outcomeOf (accepted 5#32 0x00000800#32 0#32) = some (0x08000000#32, 0x00000002#32) := by decide

/-- Section 2.7: the two readings of the length's high bits. -/
theorem test_henc_reading :
    (encodeHeader .twice ⟨0x100#11, false, false, false⟩).1 = 0x20#8 ∧
    (encodeHeader .once ⟨0x100#11, false, false, false⟩).1 = 0x80#8 ∧
    (encodeHeader .once ⟨0x500#11, false, false, false⟩).1 = 0xA0#8 := by decide

/-- Section 2.6. -/
theorem test_hdec :
    outcomeOf (accepted 6#32 0xFFFF5018#32 0xFFFFFFFF#32) = some (0x0003000A#32, 0x00000002#32) ∧
    outcomeOf (accepted 6#32 0x00000180#32 0#32) = some (0x00000480#32, 0x00000002#32) ∧
    outcomeOf (accepted 6#32 0x0000FFFF#32 0#32) = some (0x000707FF#32, 0x00000002#32) := by decide

/-! ### Host-side cases H1 to H8 -/

theorem test_h1_h2 :
    replyOf (hostDoes bench (.read 0x40000000#32 .word)) = some (.data 0#32, 0#32) ∧
    replyOf (hostDoes bench (.read 0x40000014#32 .word)) = some (.data 0#32, 0#32) := by decide

theorem test_h3_h4 :
    outcomeOf (hostDoes bench (.write 0x40000004#32 .word 0xFFFFFFFF#32)) = some (0xDEADBEEF#32, 0#32) ∧
    outcomeOf (hostDoes bench (.write 0x40000010#32 .word 0xFFFFFFFF#32)) = some (0xDEADBEEF#32, 0#32) := by
  decide

theorem test_h5 :
    replyOf (hostDoes bench (.read 0x40000004#32 .byte)) = some (.busError, 0#32) ∧
    replyOf (hostDoes bench (.read 0x40000002#32 .word)) = some (.busError, 0#32) := by decide

theorem test_h6 :
    (nextState? (step (hostDoes (inCrc .c16 0x2000#32 2#32 1#33 0#32)
      (.write 0x40000008#32 .word 0x1234#32)))).map (fun t => (t.opa, t.status.word)) =
      some (0x2000#32, 0x00000009#32) := by decide

theorem test_h7 :
    replyOf (hostDoes { bench with status := ⟨false, true, false, true, 0#4⟩ }
      (.read 0x40000004#32 .word)) = some (.data 0x0000000A#32, 0x0000000A#32) ∧
    outcomeOf (hostDoes { bench with status := ⟨false, true, false, true, 0#4⟩ }
      (.write 0x40000004#32 .word 8#32)) = some (0xDEADBEEF#32, 0x00000002#32) := by decide

theorem test_h8 :
    (nextState? (step (turns (inCrc .c16 0x2000#32 2#32 1#33 0#32) [.reset]))).map
      (fun t => (t.opa, t.res, t.status.word, t.engine)) = some (0#32, 0#32, 0#32, .idle) := by decide

/-! ### The hypotheses of the statements can be met -/

theorem test_hyp_DecodeEncodeAgree :
    decodeBytes (0x05#8 :: 0x00#8 :: 0x00#8 :: 0x00#8 :: [0xAA#8]) = .ok (.henc, [0xAA#8]) := by decide

theorem test_hyp_StepRunsDecodedCommand :
    ((accepted 3#32 0x2000#32 2#32).mover = .engine ∧ decodeWord 3#32 = .ok .crc16) ∧
    (inCrc .c32 0x2000#32 2#32 3#33 0#32).mover = .engine := by decide

/-- The CMD write of program P5 comes in the state before the finish step, in both orders. -/
theorem test_hyp_EveryOrderOfMovesIsAdmitted :
    let s := { inCrc .c16 0x2000#32 2#32 2#33 0x000013C6#32 with
      host := [wr bench.regBase .cmd 1#32] }
    s.engine = .crc .c16 0x2000#32 2#32 2#33 0x000013C6#32 ∧
    (2#33).toNat = CrcKind.c16.total (2#32).toNat ∧ s.status.busy = true ∧
    s.host = [wr s.regBase .cmd 1#32] ∧
    (turns s [.host, .engine]).sched = [.host, .engine] ∧
    (turns s [.engine, .host]).sched = [.engine, .host] ∧ (turns s [.reset]).sched = [.reset] := by
  decide

theorem test_hyp_one_step_commands :
    (accepted 1#32 0xFF#32 0#32).engine = .pending 1#32 0xFF#32 0#32 ∧
    (accepted 2#32 0xFFFF#32 0#32).engine = .pending 2#32 0xFFFF#32 0#32 ∧
    (accepted 5#32 0xFFFFFFFF#32 7#32).engine = .pending 5#32 0xFFFFFFFF#32 7#32 ∧
    (accepted 6#32 0xFFFF#32 0#32).engine = .pending 6#32 0xFFFF#32 0#32 := by decide

/-- The end bits of the three reversals. -/
theorem test_hyp_reversals : (rev8 0x01#8).getLsbD 7 = true ∧ (rev8 0x80#8).getLsbD 0 = true ∧
    (rev16 0x0001#16).getLsbD 15 = true ∧ (rev16 0x8000#16).getLsbD 0 = true ∧
    (rev11 0x001#11).getLsbD 10 = true ∧ (rev11 0x400#11).getLsbD 0 = true := by decide

theorem test_hyp_ReservedHeaderBits :
    ∀ i < 8, i ≠ 1 → i ≠ 2 → (0x00#8).getLsbD i = (0x06#8).getLsbD i := by decide

theorem test_hyp_LongLengths :
    (0x00000FFF#32).extractLsb' 0 11 = (0x000007FF#32).extractLsb' 0 11 := by decide

theorem test_hyp_HeaderRoundTrip :
    ∃ t, exec .henc (accepted 5#32 2047#32 7#32) = .next t ∧
      (accepted 6#32 t.res 0#32).engine = .pending 6#32 t.res 0#32 := ⟨_, rfl, rfl⟩

/-- Section 2.3. -/
theorem test_hyp_Crc16IsLinear : [0x12#8, 0x34#8].length = [0xFF#8, 0x00#8].length ∧
    crc16Value [0xED#8, 0x34#8] = 0x1039#16 := by decide +kernel

theorem test_hyp_CrcValuesOfSequences :
    (1 ≤ [0x12#8].length ∧ [0x12#8].length < 4) ∧
    (1 ≤ [0x12#8, 0x34#8, 0x56#8].length ∧ [0x12#8, 0x34#8, 0x56#8].length < 4) ∧
    4 ≤ [0x12#8, 0x34#8, 0x56#8, 0x78#8].length := by decide

/-- E6, E7 and E9. -/
theorem test_hyp_NullOrEmptyCrcGivesZero :
    (accepted 3#32 0#32 5#32).engine = .pending 3#32 0#32 5#32 ∧
    (accepted 3#32 0x2000#32 0#32).engine = .pending 3#32 0x2000#32 0#32 ∧
    (accepted 4#32 0#32 0xFFFFFFFF#32).engine = .pending 4#32 0#32 0xFFFFFFFF#32 := by decide

/-- One byte at the top is in range, two are not (E10 and E12). -/
theorem test_hyp_RangeErrorBeforeReading :
    (0xFFFFFFFF#32).toNat + (2#32).toNat - 1 > 0xFFFFFFFF ∧
    (0xFFFFFFFF#32).toNat + (1#32).toNat - 1 ≤ 0xFFFFFFFF ∧
    (accepted 3#32 0xFFFFFFFF#32 2#32).engine = .pending 3#32 0xFFFFFFFF#32 2#32 ∧
    (accepted 4#32 0xFFFFFFFF#32 1#32).engine = .pending 4#32 0xFFFFFFFF#32 1#32 := by decide

/-- E13: the fourth read fails. -/
theorem test_hyp_BusErrorEndsCrcAtOnce :
    let s := inCrc .c16 0x2000#32 4#32 3#33 0#32
    s.engine = .crc .c16 0x2000#32 4#32 3#33 0#32 ∧ (3#33).toNat < (4#32).toNat ∧
      s.kindAt ((0x2000#32).toNat + (3#33).toNat) = .busError := by decide

/-- Start at the top of the space, the last real byte, and the finish right behind it. -/
theorem test_hyp_Crc16EngineSteps :
    (accepted 3#32 0xFFFFFFFF#32 1#32).engine = .pending 3#32 0xFFFFFFFF#32 1#32 ∧
    ((2#33).toNat < (3#32).toNat ∧
      (inCrc .c16 0x2000#32 3#32 2#33 0#32).MemOk ((0x2000#32).toNat + (2#33).toNat)) ∧
    (3#32).toNat ≤ (3#33).toNat := by decide

/-- The last real byte, the first and the last pad byte, and the finish, for one byte. -/
theorem test_hyp_Crc32EngineSteps :
    (accepted 4#32 0xFFFFFFFF#32 1#32).engine = .pending 4#32 0xFFFFFFFF#32 1#32 ∧
    ((0#33).toNat < (1#32).toNat ∧
      (inCrc .c32 0xFFFFFFFF#32 1#32 0#33 0#32).MemOk ((0xFFFFFFFF#32).toNat + (0#33).toNat)) ∧
    ((1#32).toNat ≤ (1#33).toNat ∧ (1#33).toNat < 4) ∧
    ((1#32).toNat ≤ (3#33).toNat ∧ (3#33).toNat < 4) ∧
    ((1#32).toNat ≤ (4#33).toNat ∧ 4 ≤ (4#33).toNat) := by decide

/-- The third and fourth clause of the whole CRC commands: E13 and E14, E16. -/
theorem test_hyp_whole_crc :
    (∀ i < 3, bench.MemOk ((0x2000#32).toNat + i)) ∧
    bench.kindAt ((0x2000#32).toNat + 3) = .busError ∧ 3 < (4#32).toNat ∧
    (∀ i < (3#32).toNat, bench.MemOk ((0x2000#32).toNat + i)) ∧
    (∀ i < (1#32).toNat, bench.MemOk ((0xFFFFFFFF#32).toNat + i)) ∧
    (turns (accepted 3#32 0x2000#32 3#32) (List.replicate 5 .engine ++ [.host])).sched =
      List.replicate ((3#32).toNat + 2) .engine ++ [.host] ∧
    (turns (accepted 4#32 0xFFFFFFFF#32 1#32) (List.replicate 6 .engine)).sched =
      List.replicate (max (1#32).toNat 4 + 2) .engine ++ [] := by decide

theorem tameBench_noSideEffects : tameBench.NoSideEffects := by
  intro a
  simp only [State.kindAt, tameBench, mapKind]
  split <;> decide

/-- A CRC whose first read has a side effect. -/
def sideEffectCrc : State := inCrc .c16 0x3000#32 1#32 0#33 0#32

theorem test_hyp_OnlySideEffectReadsAreRefused :
    ((0#33).toNat < (1#32).toNat ∧
      sideEffectCrc.kindAt ((0x3000#32).toNat + (0#33).toNat) = .sideEffect ∧
      exec .crc16 sideEffectCrc = .refused (.sideEffectBuffer 0x3000)) ∧
    ∀ x, tameBench.kindAt x ≠ .sideEffect := ⟨⟨by decide, by decide, rfl⟩, tameBench_noSideEffects⟩

/-- A CRC whose first read is never answered. -/
def stuck : State := inCrc .c32 0x4000#32 1#32 0#33 0xFFFFFFFF#32

theorem stuck_inv : stuck.Inv where
  busyAgrees := by unfold State.BusyAgrees; decide
  statusLegal := by unfold Status.Legal; decide
  operandsLatched := ⟨rfl, rfl⟩
  crcInRange := by
    show _ ∧ _ ∧ _ ∧ _ ∧ _
    decide
  memory := by decide

/-- The invariant says nothing of the schedule and of the host's program. -/
theorem stuck_inv_host (q : List Turn) (p : List HostStmt) :
    ({ stuck with sched := q, host := p } : State).Inv :=
  ⟨stuck_inv.busyAgrees, stuck_inv.statusLegal, stuck_inv.operandsLatched, stuck_inv.crcInRange,
    stuck_inv.memory⟩

/-- A host write that comes between two turns of the engine, and the schedules of the last clauses. -/
theorem test_hyp_UnansweredReadSticks :
    let s : State := { stuck with
      sched := [.host, .engine], host := [wr bench.regBase .opa 5#32] }
    ((0#33).toNat < (1#32).toNat ∧ s.kindAt ((0x4000#32).toNat + (0#33).toNat) = .silent) ∧
    (s.Inv ∧ s.mover ≠ .reset ∧ ∃ t, step s = .next t ∧ t.status.drop = true) ∧
    ((∀ u ∈ s.sched.take 2, u ≠ .reset) ∧ ∃ t, runSteps 2 s = .next t) ∧
    (turns s [.engine, .engine]).sched = List.replicate 2 .engine ++ [] ∧
    (turns s [.engine, .engine, .reset]).sched = List.replicate 2 .engine ++ .reset :: [] :=
  ⟨by decide, ⟨stuck_inv_host _ _, by decide, _, rfl, rfl⟩, ⟨by decide, _, rfl⟩, rfl, rfl⟩

theorem test_hyp_CommandWriteIsAccepted :
    let s := hostDoes bench (wr bench.regBase .cmd 0xFFFFFFFF#32)
    s.mover = .host ∧ s.host = wr s.regBase .cmd 0xFFFFFFFF#32 :: [] ∧ s.status.busy = false := by
  decide

/-- The boundary words of rule R40: `OP` 0x0, 0x7 and 0xF, and the lowest and highest bit of `RSV`. -/
theorem test_hyp_IllegalWordCompletesWithError :
    (accepted 0#32 1#32 2#32).mover = .engine ∧
    (0x00000000#32).extractLsb' 0 4 = 0x0#4 ∧ 0x7 ≤ ((0x00000007#32).extractLsb' 0 4).toNat ∧
    0x7 ≤ ((0x0000000F#32).extractLsb' 0 4).toNat ∧ (0x00000011#32).extractLsb' 4 28 ≠ 0#28 ∧
    (0x80000001#32).extractLsb' 4 28 ≠ 0#28 := by decide

theorem test_hyp_WritesWhileBusyAreDropped : ∀ r ∈ [Reg.cmd, Reg.opa, Reg.opb],
    let s := hostDoes (accepted 1#32 2#32 3#32) (wr bench.regBase r 0x1234#32)
    s.mover = .host ∧ s.host = wr s.regBase r 0x1234#32 :: [] ∧ s.status.busy = true := by decide

theorem test_hyp_PendingStepFollowsDecode :
    (accepted 7#32 1#32 2#32).mover = .engine ∧ decodeWord 7#32 = .error .reservedOp ∧
    decodeWord 6#32 = .ok .hdec ∧ decodeWord 3#32 = .ok CrcKind.c16.instr ∧
    decodeWord 4#32 = .ok CrcKind.c32.instr := by decide

theorem test_hyp_OutcomeStaysUntilAcceptance :
    (∃ t, step (hostDoes bench .poll) = .next t ∧ (hostDoes bench .poll).engine = .idle ∧
      (hostDoes bench .poll).mover ≠ .reset ∧ t.engine = .idle) ∧
    (∃ t, step (hostDoes (accepted 1#32 2#32 3#32) .poll) = .next t ∧
      (accepted 1#32 2#32 3#32).status.busy = true ∧ t.engine = .pending 1#32 2#32 3#32) :=
  ⟨⟨_, rfl, by decide, by decide, rfl⟩, ⟨_, rfl, by decide, rfl⟩⟩

/-- Each clause of `StatusWordLayout`, `OperandRegisters`, `StatusWriteClearsOnlyDrop`, `CmdHoldsNoState` and
`ResIsReadOnly` names one statement of the host, an idle block and a busy one. -/
theorem test_hyp_register_accesses :
    ∀ x ∈ [wr bench.regBase .opa 1#32, wr bench.regBase .opb 2#32, rd bench.regBase .opa,
      rd bench.regBase .opb, wr bench.regBase .cmd 3#32, wr bench.regBase .status 8#32,
      wr bench.regBase .status 0xFFFFFFF7#32, rd bench.regBase .cmd, wr bench.regBase .res 4#32,
      rd bench.regBase .res, rd bench.regBase .status, .poll],
      ((hostDoes bench x).mover = .host ∧ (hostDoes bench x).host = [x] ∧
        (hostDoes bench x).status.busy = false) ∧
      ((hostDoes (accepted 1#32 2#32 3#32) x).mover = .host ∧
        (hostDoes (accepted 1#32 2#32 3#32) x).host = [x] ∧
        (hostDoes (accepted 1#32 2#32 3#32) x).status.busy = true) := by decide

/-- DROP changes on a reset, on a STATUS write with bit 3 set, and on a dropped write. -/
theorem test_hyp_StatusWriteClearsOnlyDrop :
    let dropped : State := { bench with status := ⟨false, true, false, true, 0#4⟩ }
    (∃ t, step (turns dropped [.reset]) = .next t ∧ t.status.drop ≠ dropped.status.drop) ∧
    (∃ t, step (hostDoes dropped (wr bench.regBase .status 8#32)) = .next t ∧
      t.status.drop ≠ dropped.status.drop) ∧
    (∀ r ∈ [Reg.cmd, Reg.opa, Reg.opb],
      (nextState? (step (hostDoes (accepted 1#32 2#32 3#32) (wr bench.regBase r 5#32)))).map
        (·.status.drop) ≠ some (accepted 1#32 2#32 3#32).status.drop) :=
  ⟨⟨_, rfl, by decide⟩, ⟨_, rfl, by decide⟩, by decide⟩

theorem test_hyp_block_never_writes_operands :
    ∃ t, engineStep (accepted 1#32 2#32 3#32) = .next t ∧ t.engine = .idle := ⟨_, rfl, rfl⟩

/-- RES changes when a command completes, and on reset. -/
theorem test_hyp_ResIsReadOnly :
    (∃ t, step (accepted 1#32 2#32 3#32) = .next t ∧ t.res ≠ (accepted 1#32 2#32 3#32).res) ∧
    (∃ t, step (turns bench [.reset]) = .next t ∧ t.res ≠ (turns bench [.reset]).res) :=
  ⟨⟨_, rfl, by decide⟩, ⟨_, rfl, by decide⟩⟩

theorem test_hyp_ReservedOffsetsReadZero : ∀ off ∈ [0x14#5, 0x18#5, 0x1C#5],
    (hostDoes bench (.read (windowAddr bench.regBase off) .word)).mover = .host ∧
    (hostDoes bench (.write (windowAddr bench.regBase off) .word 5#32)).mover = .host := by decide

/-- H5, and a wide access at an aligned offset. -/
theorem test_hyp_BadAccessGetsBusError :
    (hostDoes bench (.read (windowAddr bench.regBase 0x04#5) .byte)).mover = .host ∧
    AccessSize.byte ≠ AccessSize.word ∧ AccessSize.dword ≠ AccessSize.word ∧
    (0x02#5).toNat % 4 ≠ 0 ∧ (0x1F#5).toNat % 4 ≠ 0 ∧
    (hostDoes bench (.write (windowAddr bench.regBase 0x02#5) .word 9#32)).mover = .host := by decide

theorem test_hyp_HostReadsHaveNoSideEffect :
    (hostDoes bench (.read 0x12345678#32 .half)).mover = .host ∧
    (hostDoes bench .poll).mover = .host := by decide

/-- The last address of the space, and the first above it. -/
theorem test_hyp_PollAndMemStatements :
    (hostDoes bench (.mem 0xFFFFFFFF [0x5A#8])).mover = .host ∧
    (hostDoes bench (.mem 0xFFFFFFFF [0x5A#8])).host = .mem 0xFFFFFFFF (0x5A#8 :: []) :: [] ∧
    0xFFFFFFFF < spaceSize ∧
    bench.windowOffset (BitVec.ofNat 32 0xFFFFFFFF) = none ∧
    bench.windowOffset (BitVec.ofNat 32 0x40000000) = some 0x00#5 ∧
    bench.windowOffset (BitVec.ofNat 32 0x4000001F) = some 0x1F#5 ∧
    bench.windowOffset (BitVec.ofNat 32 0x40000020) = none ∧
    (hostDoes bench (.mem 0x100000000 [0x5A#8])).mover = .host ∧ spaceSize ≤ 0x100000000 := by decide

theorem test_hyp_PseudoInstructionsLeaveResult :
    bench.sched = [] ∧ bench.engine = .idle ∧ bench.status.busy = false ∧
    (∀ p ∈ [revbProgram bench.regBase 0x31#32, revwProgram bench.regBase 0x1234#32,
      hencProgram bench.regBase 10#32 false true true, hdecProgram bench.regBase 0x5018#32,
      crc16Program bench.regBase 0x2000#32 3#32, crc32Program bench.regBase 0x2000#32 3#32],
      { bench with host := p }.host = p ++ []) ∧
    (0x2000#32).toNat + (3#32).toNat - 1 ≤ 0xFFFFFFFF ∧
    (∀ i < (3#32).toNat, bench.MemOk ((0x2000#32).toNat + i)) := by decide

theorem test_hyp_HeaderBytesAreLittleEndian :
    let s := { bench with host := [storeHalf 0x2000 0x000A5018#32], sched := [.host, .host] }
    s.sched = [.host, .host] ∧ s.host = storeHalf 0x2000 0x000A5018#32 :: [] ∧
      0x2000 + 1 < spaceSize ∧ s.windowOffset (BitVec.ofNat 32 0x2000) = none ∧
      s.windowOffset (BitVec.ofNat 32 0x2001) = none := by decide

theorem test_hyp_OnlyHostStoresChangeMemory :
    ∃ t, step (hostDoes bench (.mem 0x2000 [0x99#8])) = .next t ∧
      t.mem ≠ (hostDoes bench (.mem 0x2000 [0x99#8])).mem := ⟨_, rfl, by decide⟩

theorem test_hyp_OnlyCrcBytesAreRead :
    ∃ t, step (inCrc .c16 0x2000#32 3#32 2#33 0#32) = .next t ∧ t.reads = [0x2002] := ⟨_, rfl, rfl⟩

/-- One command that completes, one that goes on. -/
theorem test_hyp_CommandsKeepTheirFrame :
    (∃ t, exec .hdec (accepted 6#32 0x5018#32 0#32) = .next t) ∧
    (∃ t, exec .crc32 (accepted 4#32 0x2000#32 3#32) = .next t ∧ t.engine ≠ .idle) :=
  ⟨⟨_, rfl⟩, ⟨_, rfl, by decide⟩⟩

theorem test_hyp_ResetAbandonsCommand :
    let s := turns (inCrc .c16 0x2000#32 3#32 2#33 0#32) [.reset]
    s.sched = .reset :: [] ∧ s.mover = .reset ∧ ∃ t, step s = .next t := ⟨rfl, rfl, _, rfl⟩

/-- A CRC-16 that has taken its first byte (0x12) and none of the rest, with its last three turns. -/
def midCrc : State :=
  turns (inCrc .c16 0x2000#32 3#32 1#33 0x00003273#32) [.engine, .engine, .engine]

/-- A CRC-16 that has taken both its bytes (E15, before its finish step). -/
def lastStep : State := inCrc .c16 0x2000#32 2#32 2#33 0x000013C6#32

theorem midCrc_inv : midCrc.Inv where
  busyAgrees := by unfold State.BusyAgrees; decide
  statusLegal := by unfold Status.Legal; decide
  operandsLatched := ⟨rfl, rfl⟩
  crcInRange := by
    show _ ∧ _ ∧ _ ∧ _ ∧ _
    decide
  memory := by decide

theorem lastStep_inv : lastStep.Inv where
  busyAgrees := by unfold State.BusyAgrees; decide
  statusLegal := by unfold Status.Legal; decide
  operandsLatched := ⟨rfl, rfl⟩
  crcInRange := by
    show _ ∧ _ ∧ _ ∧ _ ∧ _
    decide
  memory := by decide

theorem test_hyp_EveryStepKeepsInvariant : midCrc.Inv ∧ ∃ t, step midCrc = .next t :=
  ⟨midCrc_inv, _, rfl⟩

/-- The byte of a running CRC, and its finishing step. -/
theorem test_hyp_CrcSurvivesHostActivity :
    (midCrc.Inv ∧ midCrc.CrcProgress ∧ ∃ t, step midCrc = .next t ∧ midCrc.BufferKept t) ∧
    (lastStep.Inv ∧ lastStep.CrcProgress ∧ lastStep.mover = .engine ∧
      ∃ t, step lastStep = .next t ∧ t.engine = .idle ∧ t.status.err = false) :=
  ⟨⟨midCrc_inv, by show _ = _; decide +kernel, _, rfl, fun _ _ => rfl⟩,
    ⟨lastStep_inv, by show _ = _; decide +kernel, rfl, _, rfl, rfl, rfl⟩⟩

theorem test_hyp_BusyEndsWhenReadsAreAnswered :
    midCrc.Inv ∧ midCrc.status.busy = true ∧ midCrc.BufferAnswered ∧
    midCrc.sched = List.replicate midCrc.stepsLeft .engine ++ [] :=
  ⟨midCrc_inv, rfl, by unfold State.BufferAnswered; decide, by decide⟩

/-- The first address above the space, a read with a side effect, and a platform and program with
neither. -/
theorem test_hyp_MachineNeverStopsUnasked :
    step (hostDoes bench (.mem 0x100000000 [0x5A#8])) = .fault (.outsideBufferSpace 0x100000000) ∧
    step sideEffectCrc = .refused (.sideEffectBuffer 0x3000) ∧
    tameBench.NoSideEffects ∧ ∀ x ∈ tameBench.host, x.InSpace :=
  ⟨rfl, rfl, tameBench_noSideEffects, by simp [tameBench, bench]⟩

/-- Accesses just below and just above the window, and steps that change OPA, OPB and the engine. -/
theorem test_hyp_OperandsAndEngineChangeOnlyByRule :
    (bench.windowOffset 0x3FFFFFFF#32 = none ∧ bench.windowOffset 0x40000020#32 = none) ∧
    (∀ addr, (hostDoes bench (.write addr .word 5#32)).mover = .host ∧
      (hostDoes bench (.write addr .word 5#32)).host = .write addr .word 5#32 :: [] ∧
      (hostDoes bench (.read addr .half)).host = .read addr .half :: []) ∧
    (∃ t, step (hostDoes bench (wr bench.regBase .opa 5#32)) = .next t ∧ t.opa ≠ bench.opa) ∧
    (∃ t, step (hostDoes bench (wr bench.regBase .opb 5#32)) = .next t ∧ t.opb ≠ bench.opb) ∧
    (∃ t, step (turns midCrc [.reset]) = .next t ∧ t.opa ≠ midCrc.opa ∧ t.opb ≠ midCrc.opb) ∧
    (∃ t, step (hostDoes bench (wr bench.regBase .cmd 5#32)) = .next t ∧
      t.engine ≠ bench.engine) :=
  ⟨by decide, fun _ => ⟨rfl, rfl, rfl⟩, ⟨_, rfl, by decide⟩, ⟨_, rfl, by decide⟩,
    ⟨_, rfl, by decide, by decide⟩, ⟨_, rfl, by decide⟩⟩

end Sys2Proof.Tests
end

namespace Sys2Proof.Machine

/-! ### The bounds of the register window (rules R6, R7 and R21) -/

variable (s : State)

/-- An address above its low five bits, the part compared with `REG_BASE`. -/
theorem toNat_extractLsb'_base (addr : Word) :
    (addr.extractLsb' 5 27).toNat = addr.toNat / 32 := by
  have hlt : addr.toNat / 32 < 2 ^ 27 := by omega
  rw [BitVec.extractLsb'_toNat, Nat.shiftRight_eq_div_pow, Nat.mod_eq_of_lt hlt]

/-- `REG_BASE` is 32-byte aligned, so an offset is added to it. -/
theorem windowAddr_toNat (base : BitVec 27) (off : BitVec 5) :
    (windowAddr base off).toNat = base.toNat * 32 + off.toNat := by
  rw [windowAddr, BitVec.toNat_append, ← Nat.shiftLeft_add_eq_or_of_lt off.isLt,
    Nat.shiftLeft_eq]

/-- An address lies in the window when its part above the low five bits is `REG_BASE`. -/
theorem State.windowOffset_isSome (addr : Word) :
    (s.windowOffset addr).isSome ↔ addr.toNat / 32 = s.regBase.toNat := by
  rw [← toNat_extractLsb'_base, BitVec.toNat_inj]
  unfold State.windowOffset
  split <;> simp [*]

theorem State.windowOffset_isSome_iff_bounds (addr : Word) :
    (s.windowOffset addr).isSome ↔
      s.regBase.toNat * 32 ≤ addr.toNat ∧ addr.toNat ≤ s.regBase.toNat * 32 + 0x1F := by
  rw [State.windowOffset_isSome]
  omega

/-- Each register lies at its own offset and at no other. -/
theorem regAtOffset_eq_some_iff (r : Reg) (off : BitVec 5) :
    regAtOffset off = some r ↔ off = r.offset := by
  constructor
  · revert off
    cases r <;> decide
  · rintro rfl
    exact regAtOffset_offset r

/-- Settles O38: the window's bounds, the address of each offset, and the registers' offsets. -/
theorem windowIsThirtyTwoBytes : Obligations.WindowIsThirtyTwoBytes :=
  ⟨State.windowOffset_isSome_iff_bounds,
    fun s off => ⟨s.windowOffset_windowAddr off, windowAddr_toNat s.regBase off⟩,
    regAtOffset_eq_some_iff, rfl, rfl, rfl, rfl, rfl⟩

end Sys2Proof.Machine

namespace Sys2Proof.Machine

/-! ### What a step can do, case by case (rules R43, R59, R70 to R73, R77 and R85) -/

variable {s t : State}

/-- The registers of the block, its engine and the platform's wiring are the same in `s` and `t`: what
a host step keeps unless it is a register write that takes effect. -/
structure SameBlock (s t : State) : Prop where
  opa     : t.opa = s.opa
  opb     : t.opb = s.opb
  res     : t.res = s.res
  status  : t.status = s.status
  engine  : t.engine = s.engine
  map     : t.map = s.map
  regBase : t.regBase = s.regBase

theorem State.popTurn_sameBlock (s : State) : SameBlock s s.popTurn :=
  ⟨rfl, rfl, rfl, rfl, rfl, rfl, rfl⟩

/-- Every move of the host, by what it does to the block. -/
inductive HostMove (s : State) : State → Prop where
  /-- An access, a store or a statement that leaves the block as it was. -/
  | kept {t : State} (hk : SameBlock s t) : HostMove s t
  /-- A write to CMD, OPA or OPB while BUSY = 1 (rule R77). -/
  | dropped {r : Reg} {v : Word} {p : List HostStmt} (hr : r = .cmd ∨ r = .opa ∨ r = .opb)
      (hh : s.host = wr s.regBase r v :: p) (hb : s.status.busy = true) :
      HostMove s (((s.setHost p).dropWrite).setReply .ack)
  /-- A command word is accepted (rule R70). -/
  | accepted {w : Word} {p : List HostStmt} (hh : s.host = wr s.regBase .cmd w :: p)
      (hb : s.status.busy = false) : HostMove s (((s.setHost p).accept w).setReply .ack)
  /-- A write to STATUS (rule R15). -/
  | statusWritten {v : Word} {p : List HostStmt} (hh : s.host = wr s.regBase .status v :: p) :
      HostMove s ({ s.setHost p with status := s.status.onHostWrite v }.setReply .ack)
  /-- A write to OPA while BUSY = 0 (rule R9). -/
  | opaWritten {v : Word} {p : List HostStmt} (hh : s.host = wr s.regBase .opa v :: p)
      (hb : s.status.busy = false) : HostMove s ({ s.setHost p with opa := v }.setReply .ack)
  /-- A write to OPB while BUSY = 0 (rule R10). -/
  | opbWritten {v : Word} {p : List HostStmt} (hh : s.host = wr s.regBase .opb v :: p)
      (hb : s.status.busy = false) : HostMove s ({ s.setHost p with opb := v }.setReply .ack)

/-- Every move of the engine. -/
inductive EngineMove (s : State) : State → Prop where
  /-- An idle engine has no move. -/
  | idle (he : s.engine = .idle) : EngineMove s s
  /-- A command completes without error (rule R72). -/
  | completed {v : Word} (he : s.engine ≠ .idle) : EngineMove s (s.completeOk v)
  /-- An accepted word that names no command (rule R40). -/
  | illegal {w a n : Word} {e : DecodeError} (he : s.engine = .pending w a n)
      (hd : decodeWord w = .error e) : EngineMove s (s.raiseError .illegalCmd)
  /-- A CRC whose buffer runs past the top of the buffer space (rule R56). -/
  | outOfRange {w a n : Word} {k : CrcKind} (he : s.engine = .pending w a n)
      (hd : decodeWord w = .ok k.instr) (hr : OutOfRange a n) : EngineMove s (s.raiseError .range)
  /-- A CRC starts (rule R59). -/
  | begun {w a n : Word} {k : CrcKind} (he : s.engine = .pending w a n)
      (hd : decodeWord w = .ok k.instr) (ha : a ≠ 0#32) (hn : n ≠ 0#32) (hr : ¬ OutOfRange a n) :
      EngineMove s (s.setEngine (.crc k a n 0#33 k.seed))
  /-- A CRC takes a byte of the buffer (rule R59). -/
  | read {k : CrcKind} {a n c : Word} {i : BitVec 33} (he : s.engine = .crc k a n i c)
      (hi : i.toNat < n.toNat) (hm : s.MemOk (a.toNat + i.toNat)) :
      EngineMove s ((s.logRead (a.toNat + i.toNat)).setEngine
        (.crc k a n (i + 1#33) (k.update c (s.byteAt (a.toNat + i.toNat)))))
  /-- A read of a CRC fails (rule R60). -/
  | busError {k : CrcKind} {a n c : Word} {i : BitVec 33} (he : s.engine = .crc k a n i c)
      (hi : i.toNat < n.toNat) (hm : s.kindAt (a.toNat + i.toNat) = .busError) :
      EngineMove s ((s.logRead (a.toNat + i.toNat)).raiseError .busError)
  /-- A read of a CRC is not answered (rule R96). -/
  | unanswered {k : CrcKind} {a n c : Word} {i : BitVec 33} (he : s.engine = .crc k a n i c)
      (hi : i.toNat < n.toNat) (hm : s.kindAt (a.toNat + i.toNat) = .silent) : EngineMove s s
  /-- A CRC takes a pad byte (rule R61). -/
  | padded {k : CrcKind} {a n c : Word} {i : BitVec 33} (he : s.engine = .crc k a n i c)
      (hn : n.toNat ≤ i.toNat) (hi : i.toNat < k.total n.toNat) :
      EngineMove s (s.setEngine (.crc k a n (i + 1#33) (k.update c 0x00#8)))

theorem State.hostRead_sameBlock (s : State) (addr : Word) (z : AccessSize) :
    SameBlock s (s.hostRead addr z) := by
  constructor <;> simp

theorem State.hostStore_sameBlock (s : State) (addr : Nat) (b : Byte) :
    SameBlock s (s.hostStore addr b) := by
  constructor <;> simp

/-- What a host write is, by the register it reaches. -/
theorem State.hostWrite_move {addr v : Word} {z : AccessSize} {p : List HostStmt}
    (hh : s.host = .write addr z v :: p) : HostMove s ((s.setHost p).hostWrite addr z v) := by
  rcases (s.setHost p).hostWrite_inv addr z v with ⟨r, e⟩ | ⟨off, rfl, rfl, e⟩
  · rw [e]
    exact .kept ⟨rfl, rfl, rfl, rfl, rfl, rfl, rfl⟩
  · rw [e]
    rcases (s.setHost p).writeReg_inv off v with
      e | ⟨r, hr, rfl, hb, e⟩ | ⟨rfl, hb, e⟩ | ⟨rfl, e⟩ | ⟨rfl, hb, e⟩ | ⟨rfl, hb, e⟩ <;> rw [e]
    · exact .kept ⟨rfl, rfl, rfl, rfl, rfl, rfl, rfl⟩
    · exact .dropped hr hh hb
    · exact .accepted hh hb
    · exact .statusWritten hh
    · exact .opaWritten hh hb
    · exact .opbWritten hh hb

/-- A host step is one of the moves of the host. -/
theorem hostStep_move (h : hostStep s = .next t) : HostMove s t := by
  rcases hostStep_cases h with ⟨-, rfl⟩ | ⟨addr, z, v, p, hh, rfl⟩ | ⟨addr, z, p, -, rfl⟩ |
    ⟨p, -, rfl⟩ | ⟨addr, p, -, rfl⟩ | ⟨addr, b, bs, p, -, -, rfl⟩
  · exact .kept ⟨rfl, rfl, rfl, rfl, rfl, rfl, rfl⟩
  · exact State.hostWrite_move hh
  · obtain ⟨ha, hb, hr, hs, he, hm, hw⟩ := (s.setHost p).hostRead_sameBlock addr z
    exact .kept ⟨ha, hb, hr, hs, he, hm, hw⟩
  · exact .kept ⟨rfl, rfl, rfl, rfl, rfl, rfl, rfl⟩
  · exact .kept ⟨rfl, rfl, rfl, rfl, rfl, rfl, rfl⟩
  · obtain ⟨ha, hb, hr, hs, he, hm, hw⟩ :=
      (s.setHost (.mem (addr + 1) bs :: p)).hostStore_sameBlock addr b
    exact .kept ⟨ha, hb, hr, hs, he, hm, hw⟩

/-- The first step of an accepted CRC command is one of the moves of the engine. -/
theorem crcStart_move {k : CrcKind} {w a n : Word} (he : s.engine = .pending w a n)
    (hd : decodeWord w = .ok k.instr) : EngineMove s (crcStart k a n s) := by
  rcases crcStart_cases k a n s with ⟨-, e⟩ | ⟨-, -, hr, e⟩ | ⟨ha, hn, hr, e⟩ <;> rw [e]
  · exact .completed (by simp [he])
  · exact .outOfRange he hd hr
  · exact .begun he hd ha hn hr

/-- A step of a CRC in progress is one of the moves of the engine. -/
theorem crcStep_move {k : CrcKind} {a n c : Word} {i : BitVec 33}
    (he : s.engine = .crc k a n i c) (h : crcStep k s = .next t) : EngineMove s t := by
  by_cases hi : i.toNat < k.total n.toNat
  · simp only [crcStep, he, if_pos hi] at h
    rcases crcByte_cases h with ⟨hn, hm, rfl⟩ | ⟨hn, hm, rfl⟩ | ⟨hn, hm, rfl⟩ | ⟨hn, rfl⟩
    · exact .read he hn hm
    · exact .busError he hn hm
    · exact .unanswered he hn hm
    · exact .padded he hn hi
  · rw [crcStep_finish he (Nat.not_lt.mp hi)] at h
    cases h
    exact .completed (by simp [he])

/-- An engine step is one of the moves of the engine. -/
theorem engineStep_move (h : engineStep s = .next t) : EngineMove s t := by
  cases he : s.engine with
  | idle =>
    rw [engineStep_idle he] at h
    cases h
    exact .idle he
  | crc k a n i c =>
    rw [engineStep_crc he] at h
    exact crcStep_move he h
  | pending w a n =>
    cases hd : decodeWord w with
    | error e =>
      rw [engineStep_illegal he hd] at h
      cases h
      exact .illegal he hd
    | ok i =>
      rw [engineStep_pending he hd] at h
      have hbusy : s.engine ≠ .idle := by simp [he]
      have start : ∀ k : CrcKind, i = k.instr → EngineMove s t := by
        rintro k rfl
        rw [exec_instr, crcStep_pending he] at h
        cases h
        exact crcStart_move he hd
      cases i with
      | revb => cases h; exact .completed hbusy
      | revw => cases h; exact .completed hbusy
      | henc => cases h; exact .completed hbusy
      | hdec => cases h; exact .completed hbusy
      | crc16 => exact start .c16 rfl
      | crc32 => exact start .c32 rfl

/-- A step is a move of the host, a move of the engine or a reset, after the turn has left the
schedule. -/
theorem step_moves (h : step s = .next t) :
    (s.mover = .host ∧ HostMove s.popTurn t) ∨ (s.mover = .engine ∧ EngineMove s.popTurn t) ∨
    (s.mover = .reset ∧ t = s.popTurn.assertReset) := by
  rcases step_cases h with ⟨hm, h⟩ | ⟨hm, h⟩ | ⟨hm, rfl⟩
  · exact .inl ⟨hm, hostStep_move h⟩
  · exact .inr (.inl ⟨hm, engineStep_move h⟩)
  · exact .inr (.inr ⟨hm, rfl⟩)

end Sys2Proof.Machine

namespace Sys2Proof.Machine

/-! ### The invariant of the machine (rules R12, R17, R18 and R74) -/

variable {s t : State}

theorem Status.reset_legal : Status.reset.Legal := by
  simp [Status.Legal, Status.reset]

theorem Status.onAccept_legal (st : Status) : st.onAccept.Legal := by
  simp [Status.Legal, Status.onAccept, ErrCode.code]

theorem Status.onComplete_legal (st : Status) (e : ErrCode) : (st.onComplete e).Legal := by
  cases e <;> simp [Status.Legal, Status.onComplete, ErrCode.code]

/-- `DROP` is no part of what makes a STATUS value legal. -/
theorem Status.Legal.of_drop {st : Status} (h : st.Legal) (b : Bool) :
    Status.Legal { st with drop := b } := h

theorem Status.Legal.onHostWrite {st : Status} (h : st.Legal) (v : Word) :
    (st.onHostWrite v).Legal := by
  simpa [Status.Legal] using h

/-- A block that is idle in both its views has nothing else to keep. -/
theorem State.Inv.of_idle (he : s.engine = .idle) (hb : s.status.busy = false)
    (hl : s.status.Legal) (hm : Memory.WellFormed s.mem) : s.Inv where
  busyAgrees := by simp [State.BusyAgrees, he, hb]
  statusLegal := hl
  operandsLatched := by simp [State.OperandsLatched, he]
  crcInRange := by simp [State.CrcInRange, he]
  memory := hm

theorem State.Inv.engine_idle (hs : s.Inv) (hb : s.status.busy = false) : s.engine = .idle :=
  hs.busyAgrees.mp hb

theorem State.Inv.busy (hs : s.Inv) (he : s.engine ≠ .idle) : s.status.busy = true := by
  cases hb : s.status.busy with
  | false => exact absurd (hs.engine_idle hb) he
  | true => rfl

/-- The invariant speaks of the operands, STATUS, the engine and memory alone; of STATUS, besides
`Status.Legal`, only of BUSY. -/
theorem State.Inv.congr (hs : s.Inv) (ha : t.opa = s.opa) (hb : t.opb = s.opb)
    (he : t.engine = s.engine) (hbusy : t.status.busy = s.status.busy) (hl : t.status.Legal)
    (hm : Memory.WellFormed t.mem) : t.Inv where
  busyAgrees := by simpa [State.BusyAgrees, he, hbusy] using hs.busyAgrees
  statusLegal := hl
  operandsLatched := by simpa [State.OperandsLatched, he, ha, hb] using hs.operandsLatched
  crcInRange := by simpa [State.CrcInRange, he] using hs.crcInRange
  memory := hm

theorem State.Inv.of_sameBlock (hs : s.Inv) (hk : SameBlock s t) (hm : Memory.WellFormed t.mem) :
    t.Inv :=
  hs.congr hk.opa hk.opb hk.engine (congrArg Status.busy hk.status) (hk.status ▸ hs.statusLegal) hm

theorem State.Inv.popTurn (hs : s.Inv) : s.popTurn.Inv :=
  hs.of_sameBlock s.popTurn_sameBlock hs.memory

/-- A reset leaves an idle block, whatever the block did before. -/
theorem State.assertReset_inv (hm : Memory.WellFormed s.mem) : s.assertReset.Inv :=
  .of_idle rfl rfl Status.reset_legal hm

/-- Completion, with or without an error, leaves an idle block. -/
theorem State.inv_of_completed {e : ErrCode} (he : t.engine = .idle)
    (hst : t.status = s.status.onComplete e) (hm : Memory.WellFormed t.mem) : t.Inv :=
  .of_idle he (by simp [hst, Status.onComplete]) (hst ▸ s.status.onComplete_legal e) hm

/-- A host step stores one byte of the buffer space, or none. -/
theorem hostStep_memory_wellFormed (hm : Memory.WellFormed s.mem) (h : hostStep s = .next t) :
    Memory.WellFormed t.mem := by
  rcases hostStep_cases h with ⟨-, rfl⟩ | ⟨addr, z, v, p, -, rfl⟩ | ⟨addr, z, p, -, rfl⟩ |
    ⟨p, -, rfl⟩ | ⟨addr, p, -, rfl⟩ | ⟨addr, b, bs, p, -, ha, rfl⟩
  · exact hm
  · simpa using hm
  · simpa using hm
  · exact hm
  · exact hm
  · rcases (s.setHost (.mem (addr + 1) bs :: p)).hostStore_mem addr b with e | e <;> rw [e]
    · exact Memory.store_wellFormed ha hm
    · exact hm

/-- A move of the host keeps the invariant: BUSY guards every write but that of STATUS. -/
theorem HostMove.inv (hs : s.Inv) (hmem : Memory.WellFormed t.mem) (h : HostMove s t) : t.Inv := by
  cases h with
  | kept hk => exact hs.of_sameBlock hk hmem
  | dropped => exact hs.congr rfl rfl rfl rfl (hs.statusLegal.of_drop true) hmem
  | accepted =>
    exact ⟨by simp [State.BusyAgrees, Status.onAccept], s.status.onAccept_legal, ⟨rfl, rfl⟩,
      trivial, hmem⟩
  | statusWritten =>
    exact hs.congr rfl rfl rfl (s.status.onHostWrite_busy _) (hs.statusLegal.onHostWrite _) hmem
  | opaWritten _ hb => exact .of_idle (hs.engine_idle hb) hb hs.statusLegal hmem
  | opbWritten _ hb => exact .of_idle (hs.engine_idle hb) hb hs.statusLegal hmem

/-- A CRC-16 starts with `c[31:16]` 0. -/
theorem CrcKind.seed_upper {k : CrcKind} (hk : k = .c16) : k.seed.extractLsb' 16 16 = 0#16 := by
  subst hk
  decide

/-- A CRC-16 leaves `c[31:16]` 0 (rule R17). -/
theorem CrcKind.update_upper {k : CrcKind} (hk : k = .c16) (c : Word) (b : Byte) :
    (k.update c b).extractLsb' 16 16 = 0#16 := by
  subst hk
  apply BitVec.eq_of_toNat_eq
  simp only [CrcKind.update, BitVec.extractLsb'_toNat, BitVec.toNat_setWidth, BitVec.toNat_ofNat]
  omega

/-- A CRC has at most `2^32` bytes to take, so its index does not wrap. -/
theorem CrcKind.succ_le_total {k : CrcKind} {n : Word} {i : BitVec 33}
    (hi : i.toNat < k.total n.toNat) : (i + 1#33).toNat ≤ k.total n.toNat := by
  have htotal : k.total n.toNat ≤ 2 ^ 32 := by
    cases k <;> simp only [CrcKind.total, Config.crc32MinLen] <;> omega
  rw [BitVec.toNat_add_of_lt] <;> simp <;> omega

/-- The engine of a busy block takes up the next state of a CRC. -/
theorem State.Inv.setEngine_crc {k : CrcKind} {a n c : Word} {i : BitVec 33} (hs : s.Inv)
    (he : s.engine ≠ .idle) (ha : a = s.opa) (hn : n = s.opb) (ha0 : a ≠ 0#32) (hn0 : n ≠ 0#32)
    (hr : ¬ OutOfRange a n) (hi : i.toNat ≤ k.total n.toNat)
    (hc : k = .c16 → c.extractLsb' 16 16 = 0#16) : (s.setEngine (.crc k a n i c)).Inv where
  busyAgrees := by simp [State.BusyAgrees, hs.busy he]
  statusLegal := hs.statusLegal
  operandsLatched := ⟨ha, hn⟩
  crcInRange := ⟨ha0, hn0, hr, hi, hc⟩
  memory := hs.memory

theorem State.Inv.operands_pending {w a n : Word} (hs : s.Inv) (he : s.engine = .pending w a n) :
    a = s.opa ∧ n = s.opb := by
  simpa [State.OperandsLatched, he] using hs.operandsLatched

/-- A CRC in progress that takes one more byte stays within its bounds. -/
theorem State.Inv.crc_next {k : CrcKind} {a n c : Word} {i : BitVec 33} (hs : s.Inv)
    (he : s.engine = .crc k a n i c) (hi : i.toNat < k.total n.toNat) (b : Byte) :
    (s.setEngine (.crc k a n (i + 1#33) (k.update c b))).Inv := by
  obtain ⟨ha, hn⟩ : a = s.opa ∧ n = s.opb := by
    simpa [State.OperandsLatched, he] using hs.operandsLatched
  obtain ⟨ha0, hn0, hr, -, -⟩ : a ≠ 0#32 ∧ n ≠ 0#32 ∧ ¬ OutOfRange a n ∧
      i.toNat ≤ k.total n.toNat ∧ (k = .c16 → c.extractLsb' 16 16 = 0#16) := by
    simpa only [State.CrcInRange, he] using hs.crcInRange
  exact hs.setEngine_crc (by simp [he]) ha hn ha0 hn0 hr (CrcKind.succ_le_total hi)
    fun hk => CrcKind.update_upper hk c b

/-- A move of the engine keeps the invariant. -/
theorem EngineMove.inv (hs : s.Inv) (h : EngineMove s t) : t.Inv := by
  cases h with
  | idle => exact hs
  | unanswered => exact hs
  | completed => exact State.inv_of_completed (s := s) rfl rfl hs.memory
  | illegal => exact State.inv_of_completed (s := s) rfl rfl hs.memory
  | outOfRange => exact State.inv_of_completed (s := s) rfl rfl hs.memory
  | busError => exact State.inv_of_completed (s := s) rfl rfl hs.memory
  | begun he _ ha0 hn0 hr =>
    obtain ⟨ha, hn⟩ := hs.operands_pending he
    exact hs.setEngine_crc (by simp [he]) ha hn ha0 hn0 hr (Nat.zero_le _)
      CrcKind.seed_upper
  | @read k a n c i he hi =>
    have hnext := hs.crc_next he (Nat.lt_of_lt_of_le hi (k.le_total _))
      (s.byteAt (a.toNat + i.toNat))
    exact hnext.of_sameBlock ⟨rfl, rfl, rfl, rfl, rfl, rfl, rfl⟩ hs.memory
  | padded he _ hi => exact hs.crc_next he hi 0x00#8

/-- Settles O55: the reset state is what a reset of it leaves. -/
theorem invariantAtReset : Obligations.InvariantAtReset :=
  State.assertReset_inv (s := State.reset) Memory.reset_wellFormed

/-- Settles O56: each move of the host and of the engine keeps the invariant, and a reset
establishes it. -/
theorem everyStepKeepsInvariant : Obligations.EveryStepKeepsInvariant := by
  intro s t hs h
  rcases step_cases h with ⟨-, h⟩ | ⟨-, h⟩ | ⟨-, rfl⟩
  · exact (hostStep_move h).inv hs.popTurn (hostStep_memory_wellFormed hs.popTurn.memory h)
  · exact (engineStep_move h).inv hs.popTurn
  · exact State.assertReset_inv hs.popTurn.memory

end Sys2Proof.Machine

namespace Sys2Proof.Machine

/-! ### The frame of the engine and of the commands (rules R9, R10, R29, R31 and R72) -/

variable {s t : State}

/-- A command's engine step answers a state that differs in RES, STATUS, the engine and the reads. -/
theorem exec_sameOutsideEngine {i : Instr} (h : exec i s = .next t) : SameOutsideEngine s t := by
  rcases exec_cases h with ⟨v, rfl⟩ | rfl | ⟨x, rfl⟩ | ⟨k, a, n, j, c, rfl⟩ |
    ⟨x, k, a, n, j, c, rfl⟩ | rfl <;> constructor <;> rfl

theorem EngineMove.sameOutsideEngine (h : EngineMove s t) : SameOutsideEngine s t := by
  cases h <;> constructor <;> rfl

theorem State.byteAt_congr (h : t.mem = s.mem) (x : Nat) : t.byteAt x = s.byteAt x := by
  simp only [State.byteAt, h]

/-- A command other than the two CRCs completes in one step, without a read. -/
theorem exec_oneStep {i : Instr} (h16 : i ≠ .crc16) (h32 : i ≠ .crc32) (h : exec i s = .next t) :
    ∃ v, t = s.completeOk v := by
  cases i with
  | revb => cases h; exact ⟨_, rfl⟩
  | revw => cases h; exact ⟨_, rfl⟩
  | henc => cases h; exact ⟨_, rfl⟩
  | hdec => cases h; exact ⟨_, rfl⟩
  | crc16 => exact absurd rfl h16
  | crc32 => exact absurd rfl h32

/-- A step that does not complete the command leaves RES and STATUS as they were (rule R72). -/
theorem exec_running_keeps {i : Instr} (h : exec i s = .next t) (ht : t.engine ≠ .idle) :
    t.res = s.res ∧ t.status = s.status := by
  rcases exec_cases h with ⟨v, rfl⟩ | rfl | ⟨x, rfl⟩ | ⟨k, a, n, j, c, rfl⟩ |
    ⟨x, k, a, n, j, c, rfl⟩ | rfl
  · exact absurd rfl ht
  · exact absurd rfl ht
  · exact absurd rfl ht
  · exact ⟨rfl, rfl⟩
  · exact ⟨rfl, rfl⟩
  · exact ⟨rfl, rfl⟩

/-- Settles O51: from the case list of `exec`. -/
theorem commandsKeepTheirFrame : Obligations.CommandsKeepTheirFrame := by
  refine ⟨fun i s t h => ?_, fun i s t h16 h32 h => ?_, fun i s t h ht => exec_running_keeps h ht⟩
  · have hframe := exec_sameOutsideEngine h
    exact ⟨hframe, State.byteAt_congr hframe.mem⟩
  · obtain ⟨v, rfl⟩ := exec_oneStep h16 h32 h
    rfl

end Sys2Proof.Machine

namespace Sys2Proof.Machine

/-! ### The registers of the window (rules R8 to R15, R20, R25 and R77) -/

variable {s t : State}

theorem Status.onHostWrite_eq (st : Status) (v : Word) :
    st.onHostWrite v = { st with drop := if v.getLsbD 3 then false else st.drop } := by
  unfold Status.onHostWrite
  split <;> rfl

/-- A read of a register draws no free value unless it is one of RES while BUSY = 1. -/
theorem State.afterRead_eq_self {r : Reg} (h : r ≠ .res ∨ s.status.busy = false) :
    s.afterRead r.offset = s := by
  unfold State.afterRead
  rw [if_neg]
  rintro ⟨hr, hb⟩
  rw [regAtOffset_offset, Option.some.injEq] at hr
  rcases h with h | h
  · exact h hr
  · simp [h] at hb

theorem State.afterRead_res_busy (h : s.status.busy = true) :
    s.afterRead Reg.res.offset = { s with draws := s.draws + 1 } := by
  simp [State.afterRead, h]

theorem State.readReg_res_busy (h : s.status.busy = true) :
    s.readReg Reg.res.offset = Config.busyRes s.draws := by
  simp [State.readReg, h]

theorem State.readReg_res_idle (h : s.status.busy = false) :
    s.readReg Reg.res.offset = s.res := by
  simp [State.readReg, h]

/-- `wr REG, imm` is dropped on a busy block, if the register is CMD, OPA or OPB. -/
theorem step_wr_busy {r : Reg} {v : Word} {p : List HostStmt} (hm : s.mover = .host)
    (hr : r = .cmd ∨ r = .opa ∨ r = .opb) (hh : s.host = wr s.regBase r v :: p)
    (hb : s.status.busy = true) :
    step s = .next { s with
      status := { s.status with drop := true }, host := p, sched := s.sched.tail,
      reply := .ack } := by
  rw [step_wr hm hh, State.writeReg_busy (s.popTurn.setHost p) hr hb]
  rfl

/-- `rd REG` answers what the register reads as, and changes nothing but the host's progress, unless
it is one of RES while BUSY = 1. -/
theorem step_rd_pure {r : Reg} {p : List HostStmt} (hm : s.mover = .host)
    (hh : s.host = rd s.regBase r :: p) (h : r ≠ .res ∨ s.status.busy = false) :
    step s = .next { s with
      host := p, sched := s.sched.tail,
      reply := .data ((s.popTurn.setHost p).readReg r.offset) } := by
  rw [step_rd hm hh, State.afterRead_eq_self (s := s.popTurn.setHost p) h]
  rfl

/-- The bits of the STATUS word above BUSY, DONE, ERR and DROP are ECODE and then zeros. -/
theorem Status.word_getLsbD_add_four (st : Status) (i : Nat) :
    st.word.getLsbD (4 + i) = st.ecode.getLsbD i := by
  rw [Nat.add_comm]
  simp only [Status.word, BitVec.getLsbD_append]
  simpa using BitVec.lt_of_getLsbD

/-- The STATUS word, bit by bit (rule R12). -/
theorem Status.word_layout (st : Status) :
    st.word.getLsbD 0 = st.busy ∧ st.word.getLsbD 1 = st.done ∧ st.word.getLsbD 2 = st.err ∧
    st.word.getLsbD 3 = st.drop ∧ st.word.extractLsb' 4 4 = st.ecode ∧
    st.word.extractLsb' 8 24 = 0#24 := by
  have hecode : st.word.extractLsb' 4 4 = st.ecode := by
    apply BitVec.eq_of_getLsbD_eq
    intro i hi
    simp only [BitVec.getLsbD_extractLsb', hi, decide_true, Bool.true_and,
      st.word_getLsbD_add_four]
  have hreserved : st.word.extractLsb' 8 24 = 0#24 := by
    apply BitVec.eq_of_getLsbD_eq
    intro i hi
    rw [BitVec.getLsbD_extractLsb', show 8 + i = 4 + (4 + i) by omega, st.word_getLsbD_add_four,
      BitVec.getLsbD_of_ge _ _ (by omega)]
    simp
  refine ⟨?_, ?_, ?_, ?_, hecode, hreserved⟩ <;>
    simp only [Status.word, BitVec.getLsbD_append] <;> simp

/-- Settles O37: the bits of the word, and the read that answers it. -/
theorem statusWordLayout : Obligations.StatusWordLayout := by
  refine ⟨Status.word_layout, fun s p hm hh => ?_⟩
  rw [step_rd_pure hm hh (.inl (by decide))]
  rfl

/-- Settles O41: a read of CMD, and its write by the value of BUSY. -/
theorem cmdHoldsNoState : Obligations.CmdHoldsNoState := by
  refine ⟨fun s p hm hh => ?_, fun s w p hm hh => ⟨fun hb => ?_, fun hb => ?_⟩⟩
  · rw [step_rd_pure hm hh (.inl (by decide))]
    rfl
  · rw [step_wr hm hh, State.writeReg_cmd_idle (s.popTurn.setHost p) hb]
    rfl
  · exact step_wr_busy hm (.inl rfl) hh hb

/-- Settles O52: the reset state is a constant. -/
theorem resetStateIsZero : Obligations.ResetStateIsZero :=
  ⟨rfl, rfl, rfl, rfl, rfl, rfl, rfl⟩

/-- Settles O39: each access of OPA and OPB, and the frame of the engine. -/
theorem operandRegisters : Obligations.OperandRegisters := by
  refine ⟨fun s v p hm => ⟨fun hh hb => ?_, fun hh hb => ?_, fun hh hb => ?_, fun hh => ?_,
    fun hh => ?_, fun hh hb => ?_⟩, fun s t h => ?_⟩
  · rw [step_wr hm hh, State.writeReg_opa_idle (s.popTurn.setHost p) hb]
    rfl
  · rw [step_wr hm hh, State.writeReg_opb_idle (s.popTurn.setHost p) hb]
    rfl
  · rcases hh with hh | hh
    · exact step_wr_busy hm (.inr (.inl rfl)) hh hb
    · exact step_wr_busy hm (.inr (.inr rfl)) hh hb
  · rw [step_rd_pure hm hh (.inl (by decide))]
    rfl
  · rw [step_rd_pure hm hh (.inl (by decide))]
    rfl
  · refine ⟨_, step_wr hm hh, ?_⟩
    rw [State.writeReg_cmd_idle (s.popTurn.setHost p) hb]
    exact ⟨rfl, rfl⟩
  · have hframe := (engineStep_move h).sameOutsideEngine
    exact ⟨hframe.opa, hframe.opb⟩

/-- DROP changes by a reset, a STATUS write that clears it, or a dropped write. -/
theorem step_drop_changes (h : step s = .next t) (hd : t.status.drop ≠ s.status.drop) :
    (s.mover = .reset ∧ t.status.drop = false) ∨
    (∃ v p, s.mover = .host ∧ s.host = wr s.regBase .status v :: p ∧ v.getLsbD 3 = true ∧
      t.status.drop = false) ∨
    (∃ r v p, s.mover = .host ∧ s.status.busy = true ∧ (r = .cmd ∨ r = .opa ∨ r = .opb) ∧
      s.host = wr s.regBase r v :: p ∧ t.status.drop = true) := by
  rcases step_moves h with ⟨hm, h⟩ | ⟨hm, h⟩ | ⟨hm, rfl⟩
  · cases h with
    | kept hk => exact absurd (congrArg Status.drop hk.status) hd
    | dropped hr hh hb => exact .inr (.inr ⟨_, _, _, hm, hb, hr, hh, rfl⟩)
    | @statusWritten v p hh =>
      have hdrop := s.status.onHostWrite_drop v
      cases hv : v.getLsbD 3 with
      | true =>
        rw [hv, Bool.not_true, Bool.and_false] at hdrop
        exact .inr (.inl ⟨v, p, hm, hh, hv, hdrop⟩)
      | false =>
        rw [hv, Bool.not_false, Bool.and_true] at hdrop
        exact absurd hdrop hd
    | accepted => exact absurd rfl hd
    | opaWritten => exact absurd rfl hd
    | opbWritten => exact absurd rfl hd
  · exact absurd h.sameOutsideEngine.drop hd
  · exact .inl ⟨hm, rfl⟩

/-- Settles O40: the effect of a STATUS write, and the moves that change DROP. -/
theorem statusWriteClearsOnlyDrop : Obligations.StatusWriteClearsOnlyDrop := by
  refine ⟨fun s v p hm hh => ?_, fun s t h hd => step_drop_changes h hd⟩
  rw [step_wr hm hh, State.writeReg_status, Status.onHostWrite_eq]
  rfl

/-- RES changes by a reset or by a completion without error. -/
theorem step_res_changes (h : step s = .next t) (hr : t.res ≠ s.res) :
    s.mover = .reset ∨
    (s.mover = .engine ∧ s.engine ≠ .idle ∧ t.engine = .idle ∧
      t.status = ⟨false, true, false, s.status.drop, 0#4⟩) := by
  rcases step_moves h with ⟨-, h⟩ | ⟨hm, h⟩ | ⟨hm, -⟩
  · cases h with
    | kept hk => exact absurd hk.res hr
    | _ => exact absurd rfl hr
  · cases h with
    | completed he => exact .inr ⟨hm, he, rfl, rfl⟩
    | _ => exact absurd rfl hr
  · exact .inl hm

/-- Settles O42: each access of RES, and the moves that change it. -/
theorem resIsReadOnly : Obligations.ResIsReadOnly := by
  refine ⟨fun s v p hm => ⟨fun hh => ?_, fun hh hb => ?_, fun hh hb => ?_⟩,
    fun s t h hr => step_res_changes h hr⟩
  · rw [step_wr hm hh, State.writeReg_resIgnored]
    rfl
  · rw [step_rd_pure hm hh (.inr hb), State.readReg_res_idle (s := s.popTurn.setHost p) hb]
    rfl
  · rw [step_rd hm hh, State.afterRead_res_busy (s := s.popTurn.setHost p) hb,
      State.readReg_res_busy (s := s.popTurn.setHost p) hb]
    rfl

/-- OPA changes by a reset or by its own write while BUSY = 0. -/
theorem step_opa_changes (h : step s = .next t) (ho : t.opa ≠ s.opa) :
    (s.mover = .reset ∧ t.opa = 0x00000000#32) ∨
    (s.mover = .host ∧ s.status.busy = false ∧ ∃ p, s.host = wr s.regBase .opa t.opa :: p) := by
  rcases step_moves h with ⟨hm, h⟩ | ⟨-, h⟩ | ⟨hm, rfl⟩
  · cases h with
    | kept hk => exact absurd hk.opa ho
    | opaWritten hh hb => exact .inr ⟨hm, hb, _, hh⟩
    | _ => exact absurd rfl ho
  · exact absurd h.sameOutsideEngine.opa ho
  · exact .inl ⟨hm, rfl⟩

/-- OPB changes by a reset or by its own write while BUSY = 0. -/
theorem step_opb_changes (h : step s = .next t) (ho : t.opb ≠ s.opb) :
    (s.mover = .reset ∧ t.opb = 0x00000000#32) ∨
    (s.mover = .host ∧ s.status.busy = false ∧ ∃ p, s.host = wr s.regBase .opb t.opb :: p) := by
  rcases step_moves h with ⟨hm, h⟩ | ⟨-, h⟩ | ⟨hm, rfl⟩
  · cases h with
    | kept hk => exact absurd hk.opb ho
    | opbWritten hh hb => exact .inr ⟨hm, hb, _, hh⟩
    | _ => exact absurd rfl ho
  · exact absurd h.sameOutsideEngine.opb ho
  · exact .inl ⟨hm, rfl⟩

/-- A host move changes the engine only by acceptance, which BUSY = 0 admits (rule R70). -/
theorem HostMove.engine_changes (h : HostMove s t) (he : t.engine ≠ s.engine) :
    s.status.busy = false ∧ ∃ w p, s.host = wr s.regBase .cmd w :: p ∧
      t.engine = .pending w s.opa s.opb := by
  cases h with
  | kept hk => exact absurd hk.engine he
  | accepted hh hb => exact ⟨hb, _, _, hh, rfl⟩
  | _ => exact absurd rfl he

/-- A host access outside the window reaches no register. -/
theorem hostStep_notSelected {addr v : Word} {z : AccessSize} {p : List HostStmt}
    (hw : s.windowOffset addr = none)
    (hh : s.host = .write addr z v :: p ∨ s.host = .read addr z :: p) :
    hostStep s = .next ((s.setHost p).setReply .notSelected) := by
  have hw' : (s.setHost p).windowOffset addr = none := hw
  rcases hh with hh | hh <;> simp [hostStep, hh, State.hostWrite, State.hostRead, hw']

/-- Settles O60: an access outside the window, and the moves that change OPA, OPB and the engine. -/
theorem operandsAndEngineChangeOnlyByRule : Obligations.OperandsAndEngineChangeOnlyByRule := by
  refine ⟨fun s addr z v p hm hw hh => ?_, fun s t h ho => step_opa_changes h ho,
    fun s t h ho => step_opb_changes h ho, fun s t hm h he => ?_⟩
  · rw [step_host hm, hostStep_notSelected (s := s.popTurn) hw hh]
    rfl
  · rw [step_host hm] at h
    exact (hostStep_move h).engine_changes he

end Sys2Proof.Machine

namespace Sys2Proof.Machine

/-! ### Outcomes, and a read that is never answered (rules R82, R85 and R96) -/

variable {s t : State}

/-- The host leaves the engine of a busy block alone, and BUSY with it. -/
theorem HostMove.busy_keeps_engine (h : HostMove s t) (hb : s.status.busy = true) :
    t.engine = s.engine ∧ t.status.busy = true := by
  cases h with
  | kept hk => exact ⟨hk.engine, by rw [hk.status, hb]⟩
  | dropped => exact ⟨rfl, hb⟩
  | statusWritten => exact ⟨rfl, (s.status.onHostWrite_busy _).trans hb⟩
  | accepted _ hi => exact absurd hb (by simp [hi])
  | opaWritten _ hi => exact absurd hb (by simp [hi])
  | opbWritten _ hi => exact absurd hb (by simp [hi])

/-- A host move that accepts no command leaves the outcome of the last one (rule R82). -/
theorem HostMove.keeps_outcome (h : HostMove s t) (ht : t.engine = .idle) :
    t.status.done = s.status.done ∧ t.status.err = s.status.err ∧
      t.status.ecode = s.status.ecode := by
  cases h with
  | kept hk => simp only [hk.status, and_self]
  | accepted => exact absurd ht (by simp)
  | statusWritten =>
    exact ⟨s.status.onHostWrite_done _, s.status.onHostWrite_err _, s.status.onHostWrite_ecode _⟩
  | dropped => exact ⟨rfl, rfl, rfl⟩
  | opaWritten => exact ⟨rfl, rfl, rfl⟩
  | opbWritten => exact ⟨rfl, rfl, rfl⟩

/-- The engine accepts no command: one that is pending after its move was pending before it. -/
theorem EngineMove.pending_before {w a n : Word} (h : EngineMove s t)
    (ht : t.engine = .pending w a n) : s.engine = .pending w a n := by
  cases h with
  | idle => exact ht
  | unanswered => exact ht
  | _ => cases ht

/-- Settles O36: an idle engine makes no move, and neither the host nor the engine accepts a command
while BUSY = 1. -/
theorem outcomeStaysUntilAcceptance : Obligations.OutcomeStaysUntilAcceptance := by
  refine ⟨fun s t h he hm ht => ?_, fun s t w a n h hb _ ht => ?_⟩
  · rcases step_cases h with ⟨-, h⟩ | ⟨-, h⟩ | ⟨hr, -⟩
    · exact (hostStep_move h).keeps_outcome ht
    · rw [engineStep_idle (s := s.popTurn) he] at h
      cases h
      exact ⟨rfl, rfl, rfl⟩
    · exact absurd hr hm
  · rcases step_moves h with ⟨-, h⟩ | ⟨-, h⟩ | ⟨-, rfl⟩
    · exact (h.busy_keeps_engine hb).1 ▸ ht
    · exact h.pending_before ht
    · cases ht

/-- Each step takes one turn off the schedule. -/
theorem step_sched (h : step s = .next t) : t.sched = s.sched.tail := by
  rcases step_cases h with ⟨-, h⟩ | ⟨-, h⟩ | ⟨-, rfl⟩
  · rcases hostStep_cases h with ⟨-, rfl⟩ | ⟨addr, z, v, p, -, rfl⟩ | ⟨addr, z, p, -, rfl⟩ |
      ⟨p, -, rfl⟩ | ⟨addr, p, -, rfl⟩ | ⟨addr, b, bs, p, -, -, rfl⟩ <;> simp
  · exact (engineStep_move h).sameOutsideEngine.sched
  · rfl

theorem HostMove.map (h : HostMove s t) : t.map = s.map := by
  cases h with
  | kept hk => exact hk.map
  | _ => rfl

/-- No step changes the platform's map. -/
theorem step_map (h : step s = .next t) : t.map = s.map := by
  rcases step_moves h with ⟨-, h⟩ | ⟨-, h⟩ | ⟨-, rfl⟩
  · exact h.map
  · exact h.sameOutsideEngine.map
  · rfl

/-- How the platform answers a read stays as it is wired. -/
theorem step_kindAt (h : step s = .next t) (x : Nat) : t.kindAt x = s.kindAt x := by
  simp only [State.kindAt, step_map h]

/-- Every step keeps the invariant, as a rule to use along a run. -/
theorem State.Inv.step (hs : s.Inv) (h : step s = .next t) : t.Inv :=
  everyStepKeepsInvariant s t hs h

/-- A busy block's next mover is no reset if none of the next turns is one. -/
theorem State.mover_ne_reset {m : Nat} (he : s.engine ≠ .idle)
    (hq : ∀ u ∈ s.sched.take (m + 1), u ≠ .reset) : s.mover ≠ .reset := by
  cases hsch : s.sched with
  | nil => simp [State.mover_busy hsch he]
  | cons u q =>
    rw [State.mover_of_sched hsch]
    exact hq u (by simp [hsch])

section
variable {k : CrcKind} {a n c : Word} {i : BitVec 33}

/-- At a read that is never answered an engine step does nothing. -/
theorem step_unanswered (he : s.engine = .crc k a n i c) (hi : i.toNat < n.toNat)
    (hsil : s.kindAt (a.toNat + i.toNat) = .silent) (hm : s.mover = .engine) :
    step s = .next s.popTurn := by
  rw [step_engine hm, engineStep_crc (s := s.popTurn) he, crcStep_silent (s := s.popTurn) he hi hsil]

/-- At a read that is never answered only a reset moves the engine. -/
theorem step_keeps_unanswered (hs : s.Inv) (he : s.engine = .crc k a n i c)
    (hi : i.toNat < n.toNat) (hsil : s.kindAt (a.toNat + i.toNat) = .silent)
    (hm : s.mover ≠ .reset) (h : step s = .next t) :
    t.engine = s.engine ∧ t.status.busy = true := by
  have hb : s.status.busy = true := hs.busy (by simp [he])
  rcases step_moves h with ⟨-, h⟩ | ⟨hm, -⟩ | ⟨hr, -⟩
  · exact h.busy_keeps_engine hb
  · rw [step_unanswered he hi hsil hm] at h
    cases h
    exact ⟨rfl, hb⟩
  · exact absurd hr hm

/-- A run with no reset in it never leaves a read that is not answered. -/
theorem runSteps_keeps_unanswered (m : Nat) (hs : s.Inv) (he : s.engine = .crc k a n i c)
    (hi : i.toNat < n.toNat) (hsil : s.kindAt (a.toNat + i.toNat) = .silent)
    (hq : ∀ u ∈ s.sched.take m, u ≠ .reset) (h : runSteps m s = .next t) :
    t.status.busy = true ∧ t.engine = s.engine := by
  induction m generalizing s with
  | zero =>
    cases h
    exact ⟨hs.busy (by simp [he]), rfl⟩
  | succ m ih =>
    have hm : s.mover ≠ .reset := State.mover_ne_reset (by simp [he]) hq
    cases hstep : step s with
    | fault f => simp [runSteps, hstep] at h
    | refused r => simp [runSteps, hstep] at h
    | next u =>
      rw [runSteps_succ hstep] at h
      have hu : u.engine = s.engine := (step_keeps_unanswered hs he hi hsil hm hstep).1
      have hq' : ∀ x ∈ u.sched.take m, x ≠ .reset := by
        intro x hx
        apply hq
        rw [step_sched hstep] at hx
        cases hsch : s.sched <;> simp_all
      rw [← hu]
      exact ih (hs.step hstep) (hu.trans he) ((step_kindAt hstep _).trans hsil) hq' h

/-- Turns of the engine alone are used up at a read that is never answered, and change nothing. -/
theorem runSteps_unanswered (m : Nat) {q : List Turn} (he : s.engine = .crc k a n i c)
    (hi : i.toNat < n.toNat) (hsil : s.kindAt (a.toNat + i.toNat) = .silent)
    (hq : s.sched = List.replicate m .engine ++ q) : runSteps m s = .next { s with sched := q } := by
  induction m generalizing s with
  | zero =>
    obtain rfl : s.sched = q := hq
    rfl
  | succ m ih =>
    have hq' : s.sched = .engine :: (List.replicate m .engine ++ q) := hq
    rw [runSteps_succ (step_unanswered he hi hsil (State.mover_of_sched hq'))]
    exact ih (s := s.popTurn) he hsil (congrArg List.tail hq')

end

/-- Settles O31: by induction on the length of the run, with the invariant kept at each step. -/
theorem unansweredReadSticks : Obligations.UnansweredReadSticks := by
  intro s k a n c i he hi hsil
  refine ⟨fun t hs hm h => ?_, fun m t hs hq h => runSteps_keeps_unanswered m hs he hi hsil hq h,
    fun m q hq => runSteps_unanswered m he hi hsil hq, fun m q hq => ?_⟩
  · obtain ⟨heng, hbusy⟩ := step_keeps_unanswered hs he hi hsil hm h
    exact ⟨hs.busy (by simp [he]), hbusy, heng, (step_kindAt h _).trans hsil⟩
  · rw [runSteps_add (runSteps_unanswered m he hi hsil hq)]
    exact ⟨_, rfl, rfl, rfl, rfl, rfl⟩

end Sys2Proof.Machine

namespace Sys2Proof.Machine

/-! ### The CRC of a buffer, byte by byte (rules R37, R53, R54, R59 and R90) -/

variable {s t : State}

/-- The sequence a CRC run takes for `d`: `d` and then the zero bytes up to the run's total. -/
def CrcKind.fill (k : CrcKind) (d : List Byte) : List Byte :=
  d ++ List.replicate (k.total d.length - d.length) 0x00#8

theorem CrcKind.fill_c16 (d : List Byte) : CrcKind.c16.fill d = d := by
  simp [CrcKind.fill, CrcKind.total]

theorem CrcKind.fill_c32 (d : List Byte) : CrcKind.c32.fill d = padded d := by
  have hpads : max d.length Config.crc32MinLen - d.length = Config.crc32MinLen - d.length := by
    omega
  simp only [CrcKind.fill, CrcKind.total, padded, hpads]

/-- A CRC-16 in the low half of the engine's register is the CRC-16 of rule R51. -/
theorem CrcKind.foldl_update_c16 (d : List Byte) (c : Half) :
    d.foldl (CrcKind.update .c16) (c.setWidth 32) = (d.foldl crc16Byte c).setWidth 32 :=
  List.foldl_hom (BitVec.setWidth 32) fun x b => by
    simp [CrcKind.update, BitVec.setWidth_setWidth_of_le]

/-- A CRC command's value is what its finish step makes of the fold of the bytes the run takes. -/
theorem CrcKind.finish_foldl (k : CrcKind) (d : List Byte) :
    k.finish ((k.fill d).foldl k.update k.seed) = k.value d := by
  cases k with
  | c16 =>
    rw [CrcKind.fill_c16, CrcKind.seed, CrcKind.foldl_update_c16]
    simp [CrcKind.finish, CrcKind.value, crc16Value, BitVec.setWidth_setWidth_of_le]
  | c32 =>
    rw [CrcKind.fill_c32]
    rfl

theorem State.buffer_length (s : State) (a n : Nat) : (s.buffer a n).length = n := by
  simp [State.buffer]

theorem State.runByte_lt {a n j : Nat} (h : j < n) : s.runByte a n j = s.byteAt (a + j) :=
  if_pos h

theorem State.runByte_ge {a n j : Nat} (h : n ≤ j) : s.runByte a n j = 0x00#8 :=
  if_neg (Nat.not_lt.mpr h)

/-- A run that takes all of its bytes takes the buffer and the pad bytes. -/
theorem State.map_runByte_total (s : State) (k : CrcKind) (a n : Nat) :
    (List.range (k.total n)).map (s.runByte a n) = k.fill (s.buffer a n) := by
  have hbuffer : (List.range n).map (s.runByte a n) = s.buffer a n :=
    List.map_congr_left fun j hj => State.runByte_lt (List.mem_range.mp hj)
  have hpads : ∀ m, (List.range m).map (s.runByte a n ∘ (n + ·)) = List.replicate m 0x00#8 :=
    fun m => List.eq_replicate_iff.mpr ⟨by simp, by simp +contextual [State.runByte_ge]⟩
  obtain ⟨m, hm⟩ := Nat.exists_eq_add_of_le (k.le_total n)
  rw [CrcKind.fill, State.buffer_length, hm, Nat.add_sub_cancel_left, List.range_add,
    List.map_append, hbuffer, List.map_map, hpads]

/-- A run takes the same bytes in a state that keeps the bytes of its buffer. -/
theorem State.runByte_congr {a n : Nat} (h : ∀ j < n, t.byteAt (a + j) = s.byteAt (a + j)) :
    t.runByte a n = s.runByte a n := by
  funext j
  by_cases hj : j < n
  · rw [State.runByte_lt hj, State.runByte_lt hj, h j hj]
  · rw [State.runByte_ge (Nat.not_lt.mp hj), State.runByte_ge (Nat.not_lt.mp hj)]

theorem State.crcProgress_crc {k : CrcKind} {a n c : Word} {i : BitVec 33}
    (h : s.engine = .crc k a n i c) : s.CrcProgress ↔
      c = ((List.range i.toNat).map (s.runByte a.toNat n.toNat)).foldl k.update k.seed := by
  simp only [State.CrcProgress, h]

theorem State.crcProgress_of_not_crc (h : ∀ k a n i c, t.engine ≠ .crc k a n i c) :
    t.CrcProgress := by
  unfold State.CrcProgress
  split
  · trivial
  · trivial
  · exact absurd ‹_› (h _ _ _ _ _)

/-- A step that leaves the engine and the bytes of its buffer alone keeps the CRC's progress. -/
theorem State.CrcProgress.of_engine (hp : s.CrcProgress) (hk : s.BufferKept t)
    (he : t.engine = s.engine) : t.CrcProgress := by
  cases hs : s.engine with
  | idle => exact State.crcProgress_of_not_crc (by simp [he, hs])
  | pending => exact State.crcProgress_of_not_crc (by simp [he, hs])
  | crc k a n i c =>
    rw [State.BufferKept, State.operandA_crc hs, State.operandN_crc hs] at hk
    rw [State.crcProgress_crc hs] at hp
    rw [State.crcProgress_crc (he.trans hs), hp,
      State.runByte_congr hk]

/-- The index of a CRC that has a byte left to take does not wrap. -/
theorem CrcKind.toNat_succ {k : CrcKind} {n : Word} {i : BitVec 33}
    (hi : i.toNat < k.total n.toNat) : (i + 1#33).toNat = i.toNat + 1 := by
  have htotal : k.total n.toNat ≤ 2 ^ 32 := by
    cases k <;> simp only [CrcKind.total, Config.crc32MinLen] <;> omega
  exact BitVec.toNat_add_of_lt (by simp; omega)

/-- A CRC that takes the byte at its index has then taken one more byte of its run. -/
theorem State.CrcProgress.next {k : CrcKind} {a n c : Word} {i : BitVec 33}
    (hp : s.CrcProgress) (he : s.engine = .crc k a n i c) (hi : i.toNat < k.total n.toNat)
    (hm : t.mem = s.mem)
    (ht : t.engine = .crc k a n (i + 1#33) (k.update c (s.runByte a.toNat n.toNat i.toNat))) :
    t.CrcProgress := by
  have hrun : t.runByte a.toNat n.toNat = s.runByte a.toNat n.toNat :=
    State.runByte_congr fun j _ => State.byteAt_congr hm (a.toNat + j)
  rw [State.crcProgress_crc he] at hp
  rw [State.crcProgress_crc ht, CrcKind.toNat_succ hi, hrun, List.range_succ, List.map_append,
    List.foldl_append, ← hp]
  rfl

/-- A move of the host leaves the engine alone or has it hold an accepted word. -/
theorem HostMove.crcProgress (h : HostMove s t) (hp : s.CrcProgress) (hk : s.BufferKept t) :
    t.CrcProgress := by
  by_cases he : t.engine = s.engine
  · exact hp.of_engine hk he
  · obtain ⟨-, w, p, -, hw⟩ := h.engine_changes he
    exact State.crcProgress_of_not_crc (by simp [hw])

/-- A move of the engine takes the next byte of the run, begins a run with none taken, or leaves no
run behind. -/
theorem EngineMove.crcProgress (h : EngineMove s t) (hp : s.CrcProgress) : t.CrcProgress := by
  cases h with
  | idle => exact hp
  | unanswered => exact hp
  | @read k a n c i he hi =>
    exact hp.next he (Nat.lt_of_lt_of_le hi (k.le_total _)) rfl (by simp [State.runByte_lt hi])
  | padded he hn hi => exact hp.next he hi rfl (by simp [State.runByte_ge hn])
  | begun => exact (State.crcProgress_crc rfl).mpr rfl
  | completed => exact State.crcProgress_of_not_crc nofun
  | illegal => exact State.crcProgress_of_not_crc nofun
  | outOfRange => exact State.crcProgress_of_not_crc nofun
  | busError => exact State.crcProgress_of_not_crc nofun

/-- Every step keeps the progress of a CRC over a buffer that stays as it is. -/
theorem State.CrcProgress.step (hp : s.CrcProgress) (hk : s.BufferKept t)
    (h : Machine.step s = .next t) : t.CrcProgress := by
  rcases step_moves h with ⟨-, h⟩ | ⟨-, h⟩ | ⟨-, rfl⟩
  · exact h.crcProgress (s := s.popTurn) hp hk
  · exact h.crcProgress (s := s.popTurn) hp
  · exact State.crcProgress_of_not_crc nofun

/-- A CRC in progress ends without error only by its finish step. -/
theorem crcStep_completes {k : CrcKind} {a n c : Word} {i : BitVec 33}
    (he : s.engine = .crc k a n i c) (h : crcStep k s = .next t) (ht : t.engine = .idle)
    (herr : t.status.err = false) : k.total n.toNat ≤ i.toNat ∧ t.res = k.finish c := by
  by_cases hi : i.toNat < k.total n.toNat
  · simp only [crcStep, he, if_pos hi] at h
    rcases crcByte_cases h with ⟨-, -, rfl⟩ | ⟨-, -, rfl⟩ | ⟨-, -, rfl⟩ | ⟨-, rfl⟩
    · cases ht
    · cases herr
    · rw [he] at ht
      cases ht
    · cases ht
  · rw [crcStep_finish he (Nat.not_lt.mp hi)] at h
    cases h
    exact ⟨Nat.not_lt.mp hi, rfl⟩

/-- Settles O57: each move keeps the progress, and at the finish step the bytes taken are those of
the whole run. -/
theorem crcSurvivesHostActivity : Obligations.CrcSurvivesHostActivity := by
  refine ⟨fun s t _ hp hk h => hp.step hk h, fun s t k a n c i hs hp hm he h ht herr => ?_⟩
  rw [step_engine hm, engineStep_crc (s := s.popTurn) he] at h
  obtain ⟨hge, hres⟩ := crcStep_completes (s := s.popTurn) he h ht herr
  obtain ⟨-, -, -, hle, -⟩ : a ≠ 0#32 ∧ n ≠ 0#32 ∧ ¬ OutOfRange a n ∧
      i.toNat ≤ k.total n.toNat ∧ (k = .c16 → c.extractLsb' 16 16 = 0#16) := by
    simpa only [State.CrcInRange, he] using hs.crcInRange
  rw [State.crcProgress_crc he, Nat.le_antisymm hle hge, s.map_runByte_total] at hp
  rw [hres, hp, CrcKind.finish_foldl]

end Sys2Proof.Machine

namespace Sys2Proof.Machine

/-! ### Command words and their bytes (rules R26, R38 and R39) -/

/-- What lies above the lowest byte of a value is read one byte further up. -/
theorem byte_append_succ {m : Nat} (hi : BitVec m) (lo : Byte) (k : Nat) :
    (hi ++ lo).extractLsb' (8 * k + 8) 8 = hi.extractLsb' (8 * k) 8 := by
  rw [BitVec.extractLsb'_append_eq_of_le (Nat.le_add_left 8 _), Nat.add_sub_cancel]

/-- The byte lanes of a word are the bytes it is made of. -/
theorem byteLanes_wordOfBytes (x0 x1 x2 x3 : Byte) :
    (List.range 4).map (byteLane (wordOfBytes x0 x1 x2 x3)) = [x0, x1, x2, x3] := by
  have h0 : byteLane (wordOfBytes x0 x1 x2 x3) 0 = x0 := BitVec.extractLsb'_append_eq_right
  have h1 : byteLane (wordOfBytes x0 x1 x2 x3) 1 = x1 :=
    (byte_append_succ (x3 ++ x2 ++ x1) x0 0).trans BitVec.extractLsb'_append_eq_right
  have h2 : byteLane (wordOfBytes x0 x1 x2 x3) 2 = x2 :=
    (byte_append_succ (x3 ++ x2 ++ x1) x0 1).trans
      ((byte_append_succ (x3 ++ x2) x1 0).trans BitVec.extractLsb'_append_eq_right)
  have h3 : byteLane (wordOfBytes x0 x1 x2 x3) 3 = x3 :=
    (byte_append_succ (x3 ++ x2 ++ x1) x0 2).trans
      ((byte_append_succ (x3 ++ x2) x1 1).trans BitVec.extractLsb'_append_eq_left)
  simp [List.range_succ, h0, h1, h2, h3]

/-- A word is made of its byte lanes. -/
theorem wordOfBytes_byteLanes (w : Word) :
    wordOfBytes (byteLane w 0) (byteLane w 1) (byteLane w 2) (byteLane w 3) = w := by
  have h32 : byteLane w 3 ++ byteLane w 2 = w.extractLsb' 16 16 :=
    BitVec.extractLsb'_append_extractLsb'_eq_extractLsb' rfl
  have h321 : w.extractLsb' 16 16 ++ byteLane w 1 = w.extractLsb' 8 24 :=
    BitVec.extractLsb'_append_extractLsb'_eq_extractLsb' rfl
  have h3210 : w.extractLsb' 8 24 ++ byteLane w 0 = w :=
    BitVec.extractLsb'_append_extractLsb' (w := 24) (len := 8)
  rw [wordOfBytes, h32, h321, h3210]

/-- A word whose reserved field is 0 is its opcode. -/
theorem eq_ofNat_of_fields {w : Word} {m : Nat} (hr : rsvField w = 0#28)
    (ho : (opField w).toNat = m) : w = BitVec.ofNat 32 m := by
  have hw : rsvField w ++ opField w = w :=
    BitVec.extractLsb'_append_extractLsb' (w := 28) (len := 4)
  rw [← hw, hr, ← ho]
  apply BitVec.eq_of_toNat_eq
  rw [BitVec.toNat_append]
  simp
  omega

theorem decodeWord_encode (i : Instr) : decodeWord (encode i) = .ok i := by
  cases i <;> rfl

/-- The decoder takes the word of each command and no other. -/
theorem decodeWord_eq_ok_iff {w : Word} {i : Instr} : decodeWord w = .ok i ↔ w = encode i := by
  refine ⟨fun h => ?_, fun h => h ▸ decodeWord_encode i⟩
  unfold decodeWord at h
  split at h
  · split at h <;> cases h
    all_goals exact eq_ofNat_of_fields ‹_› ‹_›
  · cases h

/-- The decoder on four bytes and a rest is the decoder of their word. -/
theorem decodeBytes_eq_ok_iff {x0 x1 x2 x3 : Byte} {rest : List Byte} {i : Instr} :
    decodeBytes (x0 :: x1 :: x2 :: x3 :: rest) = .ok (i, rest) ↔
      decodeWord (wordOfBytes x0 x1 x2 x3) = .ok i := by
  rw [decodeBytes]
  cases decodeWord (wordOfBytes x0 x1 x2 x3) <;> simp [Except.map]

/-- Settles O3: the bytes of a word are its lanes, and only a command's own word decodes to it. -/
theorem decodeEncodeAgree : Obligations.DecodeEncodeAgree := by
  refine ⟨fun i rest => ?_, fun x0 x1 x2 x3 rest i h => ?_⟩
  · apply decodeBytes_eq_ok_iff.mpr
    rw [wordOfBytes_byteLanes, decodeWord_encode]
  · rw [← byteLanes_wordOfBytes, decodeWord_eq_ok_iff.mp (decodeBytes_eq_ok_iff.mp h)]
    rfl

/-- Settles O2: ten words, each evaluated. -/
theorem writtenWordsDecode : Obligations.WrittenWordsDecode :=
  ⟨rfl, rfl, rfl, rfl, rfl, rfl, rfl, rfl, rfl, rfl⟩

end Sys2Proof.Machine

namespace Sys2Proof.Machine

/-! ### Host accesses, polls and stores (rules R21 to R27, R29, R31 and R43) -/

variable {s t : State}

section
variable {addr : Word} {z : AccessSize} {v : Word} {p : List HostStmt}

theorem step_read (hm : s.mover = .host) (hh : s.host = .read addr z :: p) :
    step s = .next ((s.popTurn.setHost p).hostRead addr z) := by
  simp [step_host hm, hostStep, hh]

theorem step_write (hm : s.mover = .host) (hh : s.host = .write addr z v :: p) :
    step s = .next ((s.popTurn.setHost p).hostWrite addr z v) := by
  simp [step_host hm, hostStep, hh]

/-- A `poll` reads STATUS and stays while it shows BUSY = 1. -/
theorem step_poll (hm : s.mover = .host) (hh : s.host = .poll :: p) :
    step s = .next ((s.popTurn.setHost (if s.status.busy then .poll :: p else p)).setReply
      (.data s.status.word)) := by
  rw [step_host hm]
  simp only [hostStep, State.popTurn_host, hh]
  rfl

end

/-- A `mem` statement stores its next byte. -/
theorem step_store {addr : Nat} {b : Byte} {bs : List Byte} {p : List HostStmt}
    (hm : s.mover = .host) (hh : s.host = .mem addr (b :: bs) :: p) (ha : addr < spaceSize) :
    step s = .next ((s.popTurn.setHost (.mem (addr + 1) bs :: p)).hostStore addr b) := by
  rw [step_host hm]
  simp only [hostStep, State.popTurn_host, hh, if_pos ha]

theorem step_store_outside {addr : Nat} {b : Byte} {bs : List Byte} {p : List HostStmt}
    (hm : s.mover = .host) (hh : s.host = .mem addr (b :: bs) :: p) (ha : spaceSize ≤ addr) :
    step s = .fault (.outsideBufferSpace addr) := by
  rw [step_host hm]
  simp only [hostStep, State.popTurn_host, hh, if_neg (Nat.not_lt.mpr ha)]

section
variable {off : BitVec 5} {z : AccessSize} {v : Word} {p : List HostStmt}

/-- A read of the window is answered with a bus error unless it is admitted (rule R23). -/
theorem step_read_window (hm : s.mover = .host)
    (hh : s.host = .read (windowAddr s.regBase off) z :: p) :
    step s = .next (if AdmittedAccess off z then
      ((s.popTurn.setHost p).afterRead off).setReply (.data ((s.popTurn.setHost p).readReg off))
      else (s.popTurn.setHost p).setReply .busError) := by
  have hw := (s.popTurn.setHost p).windowOffset_windowAddr off
  rw [State.setHost_regBase, State.popTurn_regBase] at hw
  simp only [step_read hm hh, State.hostRead, hw]

/-- A write to the window is answered with a bus error unless it is admitted (rule R23). -/
theorem step_write_window (hm : s.mover = .host)
    (hh : s.host = .write (windowAddr s.regBase off) z v :: p) :
    step s = .next (if AdmittedAccess off z then
      ((s.popTurn.setHost p).writeReg off v).setReply .ack
      else (s.popTurn.setHost p).setReply .busError) := by
  have hw := (s.popTurn.setHost p).windowOffset_windowAddr off
  rw [State.setHost_regBase, State.popTurn_regBase] at hw
  simp only [step_write hm hh, State.hostWrite, hw]

end

/-- At an offset with no register there is nothing to read, to draw or to write (rule R24). -/
theorem State.reserved_access {off : BitVec 5} (h : regAtOffset off = none) (v : Word) :
    s.readReg off = 0x00000000#32 ∧ s.afterRead off = s ∧ s.writeReg off v = s := by
  simp [State.readReg, State.afterRead, State.writeReg, h]

/-- Settles O43: the reserved offsets are admitted and hold no register. -/
theorem reservedOffsetsReadZero : Obligations.ReservedOffsetsReadZero := by
  intro s off v p hm hoff
  obtain ⟨hnone, hadm⟩ : regAtOffset off = none ∧ AdmittedAccess off .word := by
    rcases hoff with rfl | rfl | rfl <;> decide
  obtain ⟨hread, hafter, hwrite⟩ := State.reserved_access (s := s.popTurn.setHost p) hnone v
  refine ⟨fun hh => ?_, fun hh => ?_⟩
  · rw [step_read_window hm hh, if_pos hadm, hread, hafter]
    rfl
  · rw [step_write_window hm hh, if_pos hadm, hwrite]
    rfl

/-- Settles O44: such an access is not admitted. -/
theorem badAccessGetsBusError : Obligations.BadAccessGetsBusError := by
  intro s off z v p hm hbad hh
  have hadm : ¬ AdmittedAccess off z := by
    rintro ⟨hz, halign⟩
    rcases hbad with h | h
    · exact h hz
    · exact h halign
  rcases hh with hh | hh
  · rw [step_read_window hm hh, if_neg hadm]
    rfl
  · rw [step_write_window hm hh, if_neg hadm]
    rfl

/-- Settles O45: what a read and a poll leave alone. -/
theorem hostReadsHaveNoSideEffect : Obligations.HostReadsHaveNoSideEffect := by
  intro s p hm hh
  rcases hh with ⟨addr, z, hh⟩ | hh
  · exact ⟨_, step_read hm hh, by simp⟩
  · exact ⟨_, step_poll hm hh, rfl, rfl, rfl, rfl, rfl, rfl, rfl, rfl, rfl, rfl⟩

/-- A byte store outside the register window changes memory alone. -/
theorem State.hostStore_outsideWindow {addr : Nat} {b : Byte}
    (h : s.windowOffset (BitVec.ofNat 32 addr) = none) :
    s.hostStore addr b = { s with mem := s.mem.store addr b } := by
  simp only [State.hostStore, h]

/-- A byte store inside the register window is answered with a bus error (rule R23). -/
theorem State.hostStore_inWindow {addr : Nat} {b : Byte} {off : BitVec 5}
    (h : s.windowOffset (BitVec.ofNat 32 addr) = some off) :
    s.hostStore addr b = s.setReply .busError := by
  simp only [State.hostStore, h]

/-- A store outside the window: its byte at its address, and all else as it was. -/
theorem step_store_lands {addr : Nat} {b : Byte} {bs : List Byte} {p : List HostStmt}
    (hm : s.mover = .host) (hh : s.host = .mem addr (b :: bs) :: p) (ha : addr < spaceSize)
    (hw : s.windowOffset (BitVec.ofNat 32 addr) = none) :
    ∃ t, step s = .next t ∧ t.byteAt addr = b ∧ (∀ x, x ≠ addr → t.byteAt x = s.byteAt x) ∧
      t = { s with host := .mem (addr + 1) bs :: p, sched := s.sched.tail, mem := t.mem } := by
  have hbyte := (s.popTurn.setHost (.mem (addr + 1) bs :: p)).hostStore_byteAt (b := b) hw
  refine ⟨_, step_store hm hh ha, ?_, fun x hx => ?_, ?_⟩
  · rw [hbyte, if_pos rfl]
  · rw [hbyte, if_neg hx]
    rfl
  · rw [State.hostStore_outsideWindow (s := s.popTurn.setHost _) hw]
    rfl

/-- Settles O46: a poll, and each kind of address a store can have. -/
theorem pollAndMemStatements : Obligations.PollAndMemStatements := by
  refine ⟨fun s p hm hh => step_poll hm hh, fun s addr b bs p hm hh =>
    ⟨step_store_lands hm hh, fun off ha hw => ?_, step_store_outside hm hh⟩⟩
  rw [step_store hm hh ha, State.hostStore_inWindow (s := s.popTurn.setHost _) hw]
  rfl

/-! ### Header bytes in memory (rule R27) -/

/-- The low two byte lanes of HENC's result are the header bytes. -/
theorem byteLane_packEncoded (len : Half) (b0 b1 : Byte) :
    byteLane (packEncoded len b0 b1) 0 = b0 ∧ byteLane (packEncoded len b0 b1) 1 = b1 :=
  ⟨BitVec.extractLsb'_append_eq_right,
    (byte_append_succ (len ++ b1) b0 0).trans BitVec.extractLsb'_append_eq_right⟩

/-- A 16-bit store outside the window leaves its two bytes in memory, the low one first. -/
theorem runSteps_storeHalf {dest : Nat} {v : Word} {p : List HostStmt}
    (hq : s.sched = [.host, .host]) (hh : s.host = storeHalf dest v :: p)
    (hd : dest + 1 < spaceSize) (hw0 : s.windowOffset (BitVec.ofNat 32 dest) = none)
    (hw1 : s.windowOffset (BitVec.ofNat 32 (dest + 1)) = none) :
    ∃ t, runSteps 2 s = .next t ∧ t.byteAt dest = byteLane v 0 ∧
      t.byteAt (dest + 1) = byteLane v 1 := by
  obtain ⟨u, hu, hbyte0, -, hframe⟩ :=
    step_store_lands (State.mover_of_sched hq) hh (Nat.lt_of_succ_lt hd) hw0
  have hmover : u.mover = .host := State.mover_of_sched (q := []) (by rw [hframe, hq]; rfl)
  have hhost : u.host = .mem (dest + 1) [byteLane v 1] :: p := by rw [hframe]
  have hw : u.windowOffset (BitVec.ofNat 32 (dest + 1)) = none := by rw [hframe]; exact hw1
  obtain ⟨t, ht, hbyte1, hother, -⟩ := step_store_lands hmover hhost hd hw
  refine ⟨t, ?_, (hother dest (by omega)).trans hbyte0, hbyte1⟩
  rw [runSteps_succ hu, runSteps_succ ht]
  rfl

/-- A load's bytes are those at its address and above it, whatever stands above it in the word. -/
theorem headerOperand_loadHalf (s : State) (dest : Nat) (hi : Half) :
    b0Operand (hi ++ s.loadHalf dest) = s.byteAt dest ∧
      b1Operand (hi ++ s.loadHalf dest) = s.byteAt (dest + 1) := by
  constructor
  · rw [b0Operand, BitVec.extractLsb'_append_eq_of_add_le (by decide)]
    exact BitVec.extractLsb'_append_eq_right
  · rw [b1Operand, BitVec.extractLsb'_append_eq_of_add_le (by decide)]
    exact BitVec.extractLsb'_append_eq_left

/-- Settles O48: the lanes of HENC's result, the two stores, and the bytes of a load. -/
theorem headerBytesAreLittleEndian : Obligations.HeaderBytesAreLittleEndian := by
  refine ⟨fun a n => byteLane_packEncoded _ _ _, fun s dest v p hq hh hd hw0 hw1 => ?_,
    headerOperand_loadHalf⟩
  obtain ⟨t, ht, hbyte0, hbyte1⟩ := runSteps_storeHalf hq hh hd hw0 hw1
  refine ⟨t, ht, hbyte0, hbyte1, ?_⟩
  rw [State.loadHalf, hbyte0, hbyte1]
  exact BitVec.extractLsb'_append_extractLsb'_eq_extractLsb' rfl

/-! ### What changes memory and what is read (rules R29 and R31) -/

/-- A host step changes memory only by the byte store of a `mem` statement. -/
theorem hostStep_mem_changes (h : hostStep s = .next t) (hne : t.mem ≠ s.mem) :
    ∃ addr b bs p, s.host = .mem addr (b :: bs) :: p ∧ t.mem = Memory.store s.mem addr b := by
  rcases hostStep_cases h with ⟨-, rfl⟩ | ⟨addr, z, v, p, -, rfl⟩ | ⟨addr, z, p, -, rfl⟩ |
    ⟨p, -, rfl⟩ | ⟨addr, p, -, rfl⟩ | ⟨addr, b, bs, p, hh, -, rfl⟩
  case inr.inr.inr.inr.inr =>
    refine ⟨addr, b, bs, p, hh, ?_⟩
    exact ((s.setHost (.mem (addr + 1) bs :: p)).hostStore_mem addr b).resolve_right hne
  all_goals exact absurd (by simp) hne

/-- Settles O49: neither an engine step nor a reset changes memory. -/
theorem onlyHostStoresChangeMemory : Obligations.OnlyHostStoresChangeMemory := by
  intro s t h hne
  rcases step_cases h with ⟨hm, h⟩ | ⟨-, h⟩ | ⟨-, rfl⟩
  · exact ⟨hm, hostStep_mem_changes (s := s.popTurn) h hne⟩
  · exact absurd (engineStep_move h).sameOutsideEngine.mem hne
  · exact absurd rfl hne

/-- A host step performs no buffer read. -/
theorem hostStep_reads (h : hostStep s = .next t) : t.reads = s.reads := by
  rcases hostStep_cases h with ⟨-, rfl⟩ | ⟨addr, z, v, p, -, rfl⟩ | ⟨addr, z, p, -, rfl⟩ |
    ⟨p, -, rfl⟩ | ⟨addr, p, -, rfl⟩ | ⟨addr, b, bs, p, -, -, rfl⟩ <;> simp

/-- An engine move reads nothing, or the next byte of a CRC in progress. -/
theorem EngineMove.reads (h : EngineMove s t) :
    t.reads = s.reads ∨ ∃ k a n i c, s.engine = .crc k a n i c ∧ i.toNat < n.toNat ∧
      t.reads = s.reads ++ [a.toNat + i.toNat] ∧
      (s.MemOk (a.toNat + i.toNat) ∨ t.engine = .idle) := by
  cases h with
  | read he hi hm => exact .inr ⟨_, _, _, _, _, he, hi, rfl, .inl hm⟩
  | busError he hi => exact .inr ⟨_, _, _, _, _, he, hi, rfl, .inr rfl⟩
  | _ => exact .inl rfl

/-- Settles O50: only a move of the engine reads. -/
theorem onlyCrcBytesAreRead : Obligations.OnlyCrcBytesAreRead := by
  intro s t h
  rcases step_cases h with ⟨-, h⟩ | ⟨hm, h⟩ | ⟨-, rfl⟩
  · exact .inl (hostStep_reads (s := s.popTurn) h)
  · refine (engineStep_move h).reads.imp_right ?_
    rintro ⟨k, a, n, i, c, hread⟩
    exact ⟨k, a, n, i, c, hm, hread⟩
  · exact .inl rfl

end Sys2Proof.Machine

namespace Sys2Proof.Machine

/-! ### What can stop a command and a step (rules R21, R32 and R96) -/

variable {s t : State}

/-- The refusal `r` names the next read of the CRC in progress, at an address whose reads have side
effects (rule R32). -/
def State.RefusedRead (s : State) (r : Refusal) : Prop :=
  ∃ k a n c j, s.engine = .crc k a n j c ∧ j.toNat < n.toNat ∧
    s.kindAt (a.toNat + j.toNat) = .sideEffect ∧ r = .sideEffectBuffer (a.toNat + j.toNat)

/-- A platform with no side-effect address refuses no read. -/
theorem State.not_refusedRead (h : s.NoSideEffects) (r : Refusal) : ¬ s.RefusedRead r := by
  rintro ⟨k, a, n, c, j, -, -, hk, -⟩
  exact h _ hk

/-- An outcome that is no stop is a next state. -/
theorem exists_next_of_no_stop {o : Host.Outcome State Fault Refusal} (hf : ∀ f, o ≠ .fault f)
    (hr : ∀ r, o ≠ .refused r) : ∃ t, o = .next t := by
  cases o with
  | next t => exact ⟨t, rfl⟩
  | fault f => exact absurd rfl (hf f)
  | refused r => exact absurd rfl (hr r)

theorem crcStep_refused {k : CrcKind} {r : Refusal} (h : crcStep k s = .refused r) :
    s.RefusedRead r := by
  obtain ⟨j, a, n, c, i, he, hb⟩ := crcStep_stops.2 r h
  obtain ⟨hi, hk, hr⟩ := crcByte_stops.2 r hb
  exact ⟨j, a, n, c, i, he, hi, hk, hr⟩

theorem exec_ne_fault (i : Instr) (s : State) (f : Fault) : exec i s ≠ .fault f := by
  cases i with
  | crc16 => exact crcStep_stops.1 f
  | crc32 => exact crcStep_stops.1 f
  | _ => exact nofun

/-- Only a CRC command is refused, and only at a read with a side effect. -/
theorem exec_refused {i : Instr} {r : Refusal} (h : exec i s = .refused r) :
    (i = .crc16 ∨ i = .crc32) ∧ s.RefusedRead r := by
  cases i with
  | crc16 => exact ⟨.inl rfl, crcStep_refused (k := .c16) h⟩
  | crc32 => exact ⟨.inr rfl, crcStep_refused (k := .c32) h⟩
  | _ => cases h

/-- Settles O30: a CRC in progress is refused at a side-effect read, and nothing else stops a
command. -/
theorem onlySideEffectReadsAreRefused : Obligations.OnlySideEffectReadsAreRefused := by
  refine ⟨fun k s a n c i he hi hk => ?_, exec_ne_fault, fun i s r h => exec_refused h,
    fun i s hs => exists_next_of_no_stop (exec_ne_fault i s) fun r h => ?_⟩
  · rw [exec_instr, crcStep_sideEffect he hi hk]
  · exact State.not_refusedRead hs r (exec_refused h).2

/-- The engine never faults, and is refused only at a read with a side effect. -/
theorem engineStep_stops :
    (∀ f, engineStep s ≠ .fault f) ∧ ∀ r, engineStep s = .refused r → s.RefusedRead r := by
  cases he : s.engine with
  | idle => simp [engineStep_idle he]
  | crc k a n i c =>
    rw [engineStep_crc he]
    exact ⟨crcStep_stops.1, fun r h => crcStep_refused h⟩
  | pending w a n =>
    cases hd : decodeWord w with
    | error e => simp [engineStep_illegal he hd]
    | ok i =>
      rw [engineStep_pending he hd]
      exact ⟨exec_ne_fault i s, fun r h => (exec_refused h).2⟩

/-- A step that faults is the host's, at a store outside the buffer space. -/
theorem step_fault {f : Fault} (h : step s = .fault f) :
    s.mover = .host ∧ ∃ addr b bs p, s.host = .mem addr (b :: bs) :: p ∧ spaceSize ≤ addr ∧
      f = .outsideBufferSpace addr := by
  cases hm : s.mover with
  | host =>
    rw [step_host hm] at h
    exact ⟨rfl, (hostStep_stops (s := s.popTurn)).2 f h⟩
  | engine =>
    rw [step_engine hm] at h
    exact absurd h (engineStep_stops.1 f)
  | reset =>
    rw [step_reset hm] at h
    cases h

/-- A step that is refused is the engine's, at a read with a side effect. -/
theorem step_refused {r : Refusal} (h : step s = .refused r) :
    s.mover = .engine ∧ s.RefusedRead r := by
  cases hm : s.mover with
  | host =>
    rw [step_host hm] at h
    exact absurd h (hostStep_stops.1 r)
  | engine =>
    rw [step_engine hm] at h
    exact ⟨rfl, (engineStep_stops (s := s.popTurn)).2 r h⟩
  | reset =>
    rw [step_reset hm] at h
    cases h

/-- What is left of a `mem` statement after one byte stays within the space. -/
theorem HostStmt.InSpace.tail {addr : Nat} {b : Byte} {bs : List Byte}
    (h : (HostStmt.mem addr (b :: bs)).InSpace) :
    addr < spaceSize ∧ (HostStmt.mem (addr + 1) bs).InSpace := by
  simp only [HostStmt.InSpace, List.length_cons] at h ⊢
  omega

/-- The host's program stays within the space as it is executed. -/
theorem hostStep_inSpace (hp : ∀ x ∈ s.host, x.InSpace) (h : hostStep s = .next t) :
    ∀ x ∈ t.host, x.InSpace := by
  rcases hostStep_cases h with ⟨-, rfl⟩ | ⟨addr, z, v, p, hh, rfl⟩ | ⟨addr, z, p, hh, rfl⟩ |
    ⟨p, hh, rfl⟩ | ⟨addr, p, hh, rfl⟩ | ⟨addr, b, bs, p, hh, -, rfl⟩
  · exact hp
  · rw [hh] at hp
    simpa using (List.forall_mem_cons.mp hp).2
  · rw [hh] at hp
    simpa using (List.forall_mem_cons.mp hp).2
  · rw [hh] at hp
    split
    · exact hp
    · exact (List.forall_mem_cons.mp hp).2
  · rw [hh] at hp
    exact (List.forall_mem_cons.mp hp).2
  · rw [hh] at hp
    obtain ⟨hx, hrest⟩ := List.forall_mem_cons.mp hp
    simpa using ⟨hx.tail.2, hrest⟩

theorem step_inSpace (hp : ∀ x ∈ s.host, x.InSpace) (h : step s = .next t) :
    ∀ x ∈ t.host, x.InSpace := by
  rcases step_cases h with ⟨-, h⟩ | ⟨-, h⟩ | ⟨-, rfl⟩
  · exact hostStep_inSpace (s := s.popTurn) hp h
  · rw [(engineStep_move h).sameOutsideEngine.host]
    exact hp
  · exact hp

/-- Settles O59: the two stops of a step, both ruled out by its premises. -/
theorem machineNeverStopsUnasked : Obligations.MachineNeverStopsUnasked := by
  refine ⟨fun s f h => step_fault h, fun s r h => step_refused h, fun s hs hp => ?_⟩
  obtain ⟨t, ht⟩ : ∃ t, step s = .next t := by
    refine exists_next_of_no_stop (fun f h => ?_) fun r h => ?_
    · obtain ⟨-, addr, b, bs, p, hh, ha, -⟩ := step_fault h
      have hx : (HostStmt.mem addr (b :: bs)).InSpace := hp _ (by simp [hh])
      exact absurd hx.tail.1 (Nat.not_lt.mpr ha)
    · exact State.not_refusedRead hs r (step_refused h).2
  refine ⟨t, ht, fun x => ?_, step_inSpace hp ht⟩
  rw [step_kindAt ht]
  exact hs x

end Sys2Proof.Machine

namespace Sys2Proof.Machine

/-! ### Legal words, and the engine's step from an accepted word (rules R39, R40, R71 and R74) -/

variable {s : State}

/-- The legal words are those the decoder names a command for. -/
theorem legalCommand_iff_decodes (w : Word) : LegalCommand w ↔ ∃ i, decodeWord w = .ok i := by
  constructor
  · rintro ⟨hr, h1, h6⟩
    have hw : w = BitVec.ofNat 32 (opField w).toNat := eq_ofNat_of_fields hr rfl
    change 1 ≤ (opField w).toNat at h1
    change (opField w).toNat ≤ 6 at h6
    generalize (opField w).toNat = m at hw h1 h6
    obtain ⟨i, hi⟩ : ∃ i, BitVec.ofNat 32 m = encode i := by
      interval_cases m
      exacts [⟨.revb, rfl⟩, ⟨.revw, rfl⟩, ⟨.crc16, rfl⟩, ⟨.crc32, rfl⟩, ⟨.henc, rfl⟩, ⟨.hdec, rfl⟩]
    exact ⟨i, decodeWord_eq_ok_iff.mpr (hw.trans hi)⟩
  · rintro ⟨i, hi⟩
    rw [decodeWord_eq_ok_iff.mp hi]
    cases i <;> decide

/-- Settles O1: a legal word is its opcode, which is that of one of the six commands. -/
theorem decoderAcceptsExactlySixWords : Obligations.DecoderAcceptsExactlySixWords :=
  ⟨legalCommand_iff_decodes, fun _ _ => decodeWord_eq_ok_iff⟩

theorem exists_error_of_not_legal {w : Word} (h : ¬ LegalCommand w) :
    ∃ e, decodeWord w = .error e := by
  cases hd : decodeWord w with
  | error e => exact ⟨e, rfl⟩
  | ok i => exact absurd ((legalCommand_iff_decodes w).mpr ⟨i, hd⟩) h

section
variable {w a n : Word} (hm : s.mover = .engine) (he : s.engine = .pending w a n)
include hm he

theorem step_pending_error {e : DecodeError} (hd : decodeWord w = .error e) :
    step s = .next (s.popTurn.raiseError .illegalCmd) := by
  rw [step_engine hm, engineStep_illegal (s := s.popTurn) he hd]

theorem step_pending_ok {i : Instr} (hd : decodeWord w = .ok i) : step s = exec i s.popTurn := by
  rw [step_engine hm, engineStep_pending (s := s.popTurn) he hd]

theorem step_pending_crc {k : CrcKind} (hd : decodeWord w = .ok k.instr) :
    step s = .next (crcStart k a n s.popTurn) := by
  rw [step_pending_ok hm he hd, exec_instr, crcStep_pending (s := s.popTurn) he]

end

/-- Settles O33: such a word is not legal, so the decoder rejects it. -/
theorem illegalWordCompletesWithError : Obligations.IllegalWordCompletesWithError := by
  intro s w a n hm he hill
  have hlegal : ¬ LegalCommand w := by
    rintro ⟨hr, h1, h6⟩
    rcases hill with h | h | h
    · exact h hr
    · simp [h] at h1
    · omega
  obtain ⟨e, hd⟩ := exists_error_of_not_legal hlegal
  exact step_pending_error hm he hd

/-- A command other than the two CRCs answers with its completion. -/
theorem exists_exec_completes {i : Instr} (h16 : i ≠ .crc16) (h32 : i ≠ .crc32) (s : State) :
    ∃ v, exec i s = .next (s.completeOk v) := by
  obtain ⟨t, ht⟩ : ∃ t, exec i s = .next t :=
    exists_next_of_no_stop (exec_ne_fault i s) fun r h =>
      (exec_refused h).1.elim h16 h32
  obtain ⟨v, rfl⟩ := exec_oneStep h16 h32 ht
  exact ⟨v, ht⟩

/-- Settles O35: by what the word decodes to, and for a CRC by the checks of its start. -/
theorem pendingStepFollowsDecode : Obligations.PendingStepFollowsDecode := by
  intro s w a n hm he
  refine ⟨fun e hd => ?_, fun i hd h16 h32 => ?_, fun k hd => ?_⟩
  · exact ⟨_, step_pending_error hm he hd, rfl, rfl, rfl⟩
  · obtain ⟨v, hv⟩ := exists_exec_completes h16 h32 s.popTurn
    exact ⟨_, (step_pending_ok hm he hd).trans hv, rfl, rfl, rfl⟩
  · refine ⟨_, step_pending_crc hm he hd, ?_⟩
    rcases crcStart_cases k a n s.popTurn with ⟨-, e⟩ | ⟨-, -, -, e⟩ | ⟨-, -, -, e⟩ <;> rw [e]
    · exact ⟨rfl, .inl ⟨rfl, rfl⟩⟩
    · exact ⟨rfl, .inl ⟨rfl, rfl⟩⟩
    · exact ⟨rfl, .inr ⟨rfl, rfl⟩⟩

end Sys2Proof.Machine

namespace Sys2Proof.Machine

/-! ### A CRC command from its acceptance to its end (rules R29, R57, R58 and R59) -/

variable {s : State}

/-- A busy engine takes the next `m` turns of the schedule `sched`, and `q` is left of it: the schedule
gives the engine these turns, or it is empty (log entry 5). -/
def EngineTurns (m : Nat) (sched q : List Turn) : Prop :=
  sched = List.replicate m .engine ++ q ∨ (sched = [] ∧ q = [])

theorem EngineTurns.zero {sched q : List Turn} (h : EngineTurns 0 sched q) : sched = q := by
  rcases h with h | ⟨rfl, rfl⟩
  · exact h
  · rfl

theorem EngineTurns.tail {m : Nat} {sched q : List Turn} (h : EngineTurns (m + 1) sched q) :
    EngineTurns m sched.tail q := by
  rcases h with rfl | ⟨rfl, rfl⟩
  · exact .inl rfl
  · exact .inr ⟨rfl, rfl⟩

theorem EngineTurns.mover {m : Nat} {q : List Turn} (h : EngineTurns (m + 1) s.sched q)
    (he : s.engine ≠ .idle) : s.mover = .engine := by
  rcases h with h | ⟨h, -⟩
  · exact State.mover_of_sched (by rw [h, List.replicate_succ, List.cons_append])
  · exact State.mover_busy h he

section
variable {k : CrcKind} {a n c : Word} {i : BitVec 33}

/-- `s` once a CRC has taken the byte at its index, from the buffer or as a pad byte. -/
def State.tookByte (s : State) (k : CrcKind) (a n : Word) (i : BitVec 33) (c : Word) : State :=
  { s with
    engine := .crc k a n (i + 1#33) (k.update c (s.runByte a.toNat n.toNat i.toNat))
    sched := s.sched.tail
    reads := s.reads ++ if i.toNat < n.toNat then [a.toNat + i.toNat] else [] }

theorem step_crc_byte (hm : s.mover = .engine) (he : s.engine = .crc k a n i c)
    (hi : i.toNat < k.total n.toNat) (hmem : ∀ j < n.toNat, s.MemOk (a.toNat + j)) :
    step s = .next (s.tookByte k a n i c) := by
  rw [step_engine hm, engineStep_crc (s := s.popTurn) he, State.tookByte]
  by_cases hn : i.toNat < n.toNat
  · rw [crcStep_read (s := s.popTurn) he hn (hmem _ hn), State.runByte_lt hn, if_pos hn]
    rfl
  · have hn' : n.toNat ≤ i.toNat := Nat.not_lt.mp hn
    rw [crcStep_pad (s := s.popTurn) he hn' hi, State.runByte_ge hn', if_neg hn, List.append_nil]
    rfl

/-- The step behind the last byte completes a CRC with the value of its buffer. -/
theorem step_crc_finish (hm : s.mover = .engine) (he : s.engine = .crc k a n i c)
    (hp : s.CrcProgress) (hi : i.toNat = k.total n.toNat) :
    step s = .next (s.popTurn.completeOk (k.value (s.buffer a.toNat n.toNat))) := by
  rw [State.crcProgress_crc he, hi, s.map_runByte_total] at hp
  rw [step_engine hm, engineStep_crc (s := s.popTurn) he,
    crcStep_finish (s := s.popTurn) he hi.ge, hp, CrcKind.finish_foldl]

theorem bufferAddrs_length (a n : Nat) : (bufferAddrs a n).length = n := by
  simp [bufferAddrs]

/-- The reads from an index on are the one at that index and those from the next index on. -/
theorem bufferAddrs_drop_succ (a n i : Nat) :
    (if i < n then [a + i] else []) ++ (bufferAddrs a n).drop (i + 1) =
      (bufferAddrs a n).drop i := by
  have hlen := bufferAddrs_length a n
  by_cases h : i < n
  · rw [if_pos h, List.drop_eq_getElem_cons (i := i) (by omega)]
    simp [bufferAddrs]
  · rw [if_neg h, List.drop_of_length_le (by omega), List.drop_of_length_le (by omega)]
    rfl

/-- A CRC in progress with `m` bytes still to take ends after `m + 1` turns of the engine. -/
theorem runSteps_crc_rest {m : Nat} {q : List Turn} (hq : EngineTurns (m + 1) s.sched q)
    (he : s.engine = .crc k a n i c) (hp : s.CrcProgress) (hi : i.toNat + m = k.total n.toNat)
    (hmem : ∀ j < n.toNat, s.MemOk (a.toNat + j)) :
    runSteps (m + 1) s = .next { s with
      res := k.value (s.buffer a.toNat n.toNat), status := s.status.onComplete .none,
      engine := .idle, sched := q,
      reads := s.reads ++ (bufferAddrs a.toNat n.toNat).drop i.toNat } := by
  induction m generalizing s i c with
  | zero =>
    have hm : s.mover = .engine := hq.mover (by simp [he])
    have hle : n.toNat ≤ i.toNat := (k.le_total n.toNat).trans_eq hi.symm
    have hend : (bufferAddrs a.toNat n.toNat).drop i.toNat = [] :=
      List.drop_of_length_le (by rwa [bufferAddrs_length])
    rw [runSteps_succ (step_crc_finish hm he hp hi), hend, List.append_nil, ← hq.tail.zero]
    rfl
  | succ m ih =>
    have hm : s.mover = .engine := hq.mover (by simp [he])
    have hlt : i.toNat < k.total n.toNat := by omega
    have hnext : (i + 1#33).toNat = i.toNat + 1 := CrcKind.toNat_succ hlt
    rw [runSteps_succ (step_crc_byte hm he hlt hmem)]
    rw [ih (s := s.tookByte k a n i c) hq.tail rfl (hp.next he hlt rfl rfl) (by omega) hmem, hnext]
    simp only [State.tookByte, List.append_assoc, bufferAddrs_drop_succ]
    rfl

/-- An accepted CRC command over a buffer that answers every read takes the start step, one step a
byte and the finish step. -/
theorem runSteps_crc_command {q : List Turn} (hq : EngineTurns (k.total n.toNat + 2) s.sched q)
    (he : s.engine = .pending (encode k.instr) a n) (ha : a ≠ 0#32) (hn : n ≠ 0#32)
    (hr : ¬ OutOfRange a n) (hmem : ∀ j < n.toNat, s.MemOk (a.toNat + j)) :
    runSteps (k.total n.toNat + 2) s = .next { s with
      res := k.value (s.buffer a.toNat n.toNat), status := s.status.onComplete .none,
      engine := .idle, sched := q, reads := s.reads ++ bufferAddrs a.toNat n.toNat } := by
  have hstart := step_pending_crc (hq.mover (by simp [he])) he (decodeWord_encode k.instr)
  rw [crcStart_begins ha hn hr] at hstart
  rw [runSteps_succ hstart]
  exact runSteps_crc_rest (s := s.popTurn.setEngine (.crc k a n 0#33 k.seed)) hq.tail rfl
    ((State.crcProgress_crc rfl).mpr rfl) (Nat.zero_add _) hmem

end

end Sys2Proof.Machine

namespace Sys2Proof.Machine

/-! ### The pseudo-instructions (rules R43, R44 and R70) -/

variable {s t : State}

/-- The block is idle and no order of moves is given, so the host moves (log entry 5). -/
structure State.AtRest (s : State) : Prop where
  sched  : s.sched = []
  engine : s.engine = .idle
  busy   : s.status.busy = false

theorem State.AtRest.mover (h : s.AtRest) : s.mover = .host :=
  State.mover_idle h.sched h.engine

/-- `s` once `w` is accepted with the operands `a` and `n`, and the host has the statements `p` still to
execute. -/
def State.issued (s : State) (w a n : Word) (p : List HostStmt) : State :=
  { s with
    opa := a, opb := n, engine := .pending w a n, status := s.status.onAccept, host := p
    reply := .ack }

section
variable {v w : Word} {p : List HostStmt}

theorem State.AtRest.step_wr_opa (h : s.AtRest) (hh : s.host = wr s.regBase .opa v :: p) :
    step s = .next { s with opa := v, host := p, reply := .ack } := by
  rw [step_wr h.mover hh, State.popTurn_nil h.sched,
    State.writeReg_opa_idle (s.setHost p) h.busy]
  rfl

theorem State.AtRest.step_wr_opb (h : s.AtRest) (hh : s.host = wr s.regBase .opb v :: p) :
    step s = .next { s with opb := v, host := p, reply := .ack } := by
  rw [step_wr h.mover hh, State.popTurn_nil h.sched,
    State.writeReg_opb_idle (s.setHost p) h.busy]
  rfl

theorem State.AtRest.step_wr_cmd (h : s.AtRest) (hh : s.host = wr s.regBase .cmd w :: p) :
    step s = .next (s.issued w s.opa s.opb p) := by
  rw [step_wr h.mover hh, State.popTurn_nil h.sched,
    State.writeReg_cmd_idle (s.setHost p) h.busy]
  rfl

end

/-- After `m` steps the host has come to its statements `p`, with BUSY = 0, ERR = 0 and `r` in RES. -/
def Leaves (s : State) (m : Nat) (p : List HostStmt) (r : Word) : Prop :=
  ∃ t, runSteps m s = .next t ∧ t.host = p ∧ t.status.busy = false ∧ t.status.err = false ∧
    t.res = r

section
variable {m : Nat} {w v a n r : Word} {p q : List HostStmt}

theorem Leaves.of_run {j : Nat} (h : Leaves t m p r) (hrun : runSteps j s = .next t) :
    Leaves s (j + m) p r := by
  rwa [Leaves, runSteps_add hrun]

theorem Leaves.of_step (h : Leaves t m p r) (hstep : step s = .next t) :
    Leaves s (m + 1) p r := by
  rwa [Leaves, runSteps_succ hstep]

/-- A `poll` of an idle block is over at once. -/
theorem State.AtRest.leaves_poll (h : s.AtRest) (hh : s.host = .poll :: p)
    (herr : s.status.err = false) (hr : s.res = r) : Leaves s 1 p r :=
  ⟨_, runSteps_succ (step_poll h.mover hh), by simp [h.busy], h.busy, herr, hr⟩

/-- A command that completes in one step has its result in RES when the `poll` is over. -/
theorem State.AtRest.leaves_oneStep {i : Instr} (h : s.AtRest)
    (hx : exec i (s.issued (encode i) a n (.poll :: p)) =
      .next ((s.issued (encode i) a n (.poll :: p)).completeOk r)) :
    Leaves (s.issued (encode i) a n (.poll :: p)) 2 p r := by
  have hs : (s.issued (encode i) a n (.poll :: p)).sched = [] := h.sched
  have hstep := step_pending_ok (State.mover_busy hs nofun) rfl (decodeWord_encode i)
  rw [State.popTurn_nil hs, hx] at hstep
  have hdone : ((s.issued (encode i) a n (.poll :: p)).completeOk r).AtRest := ⟨hs, rfl, rfl⟩
  exact (hdone.leaves_poll rfl rfl rfl).of_step hstep

/-- A CRC command over a buffer that answers every read has its value in RES when the `poll` is over. -/
theorem State.AtRest.leaves_crc {k : CrcKind} (h : s.AtRest) (ha : a ≠ 0#32) (hn : n ≠ 0#32)
    (hr : ¬ OutOfRange a n) (hmem : ∀ j < n.toNat, s.MemOk (a.toNat + j)) :
    Leaves (s.issued (encode k.instr) a n (.poll :: p)) (k.total n.toNat + 2 + 1) p
      (k.value (s.buffer a.toNat n.toNat)) := by
  have hrun := runSteps_crc_command (s := s.issued (encode k.instr) a n (.poll :: p))
    (.inr ⟨h.sched, rfl⟩) rfl ha hn hr hmem
  exact Leaves.of_run (State.AtRest.leaves_poll ⟨rfl, rfl, rfl⟩ rfl rfl rfl) hrun

/-- A program that writes OPA and CMD. -/
theorem State.AtRest.leaves_opa_cmd (h : s.AtRest)
    (hh : s.host = wr s.regBase .opa v :: wr s.regBase .cmd w :: q)
    (hl : Leaves (s.issued w v s.opb q) m p r) : Leaves s (m + 2) p r := by
  have hcmd := State.AtRest.step_wr_cmd (w := w) (p := q)
    (s := { s with opa := v, host := wr s.regBase .cmd w :: q, reply := .ack })
    ⟨h.sched, h.engine, h.busy⟩ rfl
  exact (hl.of_step hcmd).of_step (h.step_wr_opa hh)

/-- A program that writes OPA, OPB and CMD. -/
theorem State.AtRest.leaves_opa_opb_cmd (h : s.AtRest)
    (hh : s.host = wr s.regBase .opa v :: wr s.regBase .opb n :: wr s.regBase .cmd w :: q)
    (hl : Leaves (s.issued w v n q) m p r) : Leaves s (m + 3) p r := by
  have hopb := State.AtRest.step_wr_opb (v := n) (p := wr s.regBase .cmd w :: q)
    (s := { s with opa := v, host := wr s.regBase .opb n :: wr s.regBase .cmd w :: q, reply := .ack })
    ⟨h.sched, h.engine, h.busy⟩ rfl
  have hcmd := State.AtRest.step_wr_cmd (w := w) (p := q)
    (s := { s with opa := v, opb := n, host := wr s.regBase .cmd w :: q, reply := .ack })
    ⟨h.sched, h.engine, h.busy⟩ rfl
  exact ((hl.of_step hcmd).of_step hopb).of_step (h.step_wr_opa hh)

end

/-- HENC's operands name the header that `henc len, ms, ce, dw` is given. -/
theorem headerOperand_flagWord (len : Word) (ms ce dw : Bool) :
    headerOperand len (flagWord ms ce dw) = ⟨len.extractLsb' 0 11, ms, ce, dw⟩ := by
  have hlen : (halfOperand len).extractLsb' 0 11 = len.extractLsb' 0 11 :=
    BitVec.extractLsb'_extractLsb'_of_le (by decide)
  have hms : msOperand (flagWord ms ce dw) = ms := by revert ms ce dw; decide
  have hce : ceOperand (flagWord ms ce dw) = ce := by revert ms ce dw; decide
  have hdw : dwOperand (flagWord ms ce dw) = dw := by revert ms ce dw; decide
  rw [headerOperand, hlen, hms, hce, hdw]

/-- The result of HENC for the operands of `henc len, ms, ce, dw`. -/
theorem hencResult_flagWord (o : PhrHiOrder) (len : Word) (ms ce dw : Bool) :
    hencResult o len (flagWord ms ce dw) = packEncoded (len.extractLsb' 0 16)
      (encodeHeader o ⟨len.extractLsb' 0 11, ms, ce, dw⟩).1
      (encodeHeader o ⟨len.extractLsb' 0 11, ms, ce, dw⟩).2 := by
  rw [hencResult, headerOperand_flagWord]
  rfl

/-- Settles O47: the writes, the engine's steps of the command, and the `poll`. -/
theorem pseudoInstructionsLeaveResult : Obligations.PseudoInstructionsLeaveResult := by
  intro s p v n ms ce dw hs he hb
  have h : s.AtRest := ⟨hs, he, hb⟩
  refine ⟨fun hh => ?_, fun hh => ?_, fun hh => ?_, fun hh => ?_, fun hv hn hr hmem =>
    ⟨fun hh => ?_, fun hh => ?_⟩⟩
  · exact h.leaves_opa_cmd hh (h.leaves_oneStep rfl)
  · exact h.leaves_opa_cmd hh (h.leaves_oneStep rfl)
  · rw [← hencResult_flagWord]
    exact h.leaves_opa_opb_cmd hh (h.leaves_oneStep rfl)
  · exact h.leaves_opa_cmd hh (h.leaves_oneStep rfl)
  · exact h.leaves_opa_opb_cmd hh (h.leaves_crc (k := .c16) hv hn (Nat.not_lt.mpr hr) hmem)
  · exact h.leaves_opa_opb_cmd hh (h.leaves_crc (k := .c32) hv hn (Nat.not_lt.mpr hr) hmem)

end Sys2Proof.Machine

namespace Sys2Proof.Machine

/-! ### The reversals are those of the library (rules R45 to R48) -/

/-- Bit `i` of a reversal, by the index from the low end. -/
theorem getLsbD_reverse_of_lt {m i : Nat} (x : BitVec m) (hi : i < m) :
    x.reverse.getLsbD i = x.getLsbD (m - 1 - i) := by
  rw [BitVec.getLsbD_reverse, BitVec.getMsbD_eq_getLsbD]
  simp [hi]

/-- The first swap stage of rule R45: the index bit of weight 4 flips. -/
theorem getLsbD_swapNibbles (b : Byte) {i : Nat} (hi : i < 8) :
    (((b &&& 0xF0#8) >>> 4) ||| ((b &&& 0x0F#8) <<< 4)).getLsbD i = b.getLsbD (i ^^^ 4) := by
  interval_cases i <;> simp

/-- The second swap stage of rule R45: the index bit of weight 2 flips. -/
theorem getLsbD_swapPairs (b : Byte) {i : Nat} (hi : i < 8) :
    (((b &&& 0xCC#8) >>> 2) ||| ((b &&& 0x33#8) <<< 2)).getLsbD i = b.getLsbD (i ^^^ 2) := by
  interval_cases i <;> simp

/-- The third swap stage of rule R45: the index bit of weight 1 flips. -/
theorem getLsbD_swapBits (b : Byte) {i : Nat} (hi : i < 8) :
    (((b &&& 0xAA#8) >>> 1) ||| ((b &&& 0x55#8) <<< 1)).getLsbD i = b.getLsbD (i ^^^ 1) := by
  interval_cases i <;> simp

/-- The three stages together flip every bit of the index. -/
theorem rev8_getLsbD (b : Byte) {i : Nat} (hi : i < 8) :
    (rev8 b).getLsbD i = b.getLsbD (7 - i) := by
  have h1 : i ^^^ 1 < 8 := Nat.xor_lt_two_pow (n := 3) hi (by decide)
  have h2 : i ^^^ 1 ^^^ 2 < 8 := Nat.xor_lt_two_pow (n := 3) h1 (by decide)
  have hflip : i ^^^ 1 ^^^ 2 ^^^ 4 = 7 - i := by
    interval_cases i <;> rfl
  rw [rev8, getLsbD_swapBits _ hi, getLsbD_swapPairs _ h1, getLsbD_swapNibbles _ h2, hflip]

theorem rev8_eq_reverse (b : Byte) : rev8 b = b.reverse := by
  apply BitVec.eq_of_getLsbD_eq
  intro i hi
  rw [rev8_getLsbD b hi, getLsbD_reverse_of_lt b hi]

/-- Reversal swaps the two parts of an append, so reversing both bytes and swapping them reverses
the half. -/
theorem rev16_eq_reverse (w : Half) : rev16 w = w.reverse := by
  have hw : w.extractLsb' 8 8 ++ w.extractLsb' 0 8 = w :=
    BitVec.extractLsb'_append_extractLsb' (w := 8) (len := 8)
  calc rev16 w = (w.extractLsb' 0 8).reverse ++ (w.extractLsb' 8 8).reverse := by
        rw [rev16, rev8_eq_reverse, rev8_eq_reverse]
    _ = (w.extractLsb' 8 8 ++ w.extractLsb' 0 8).reverse := BitVec.reverse_append.symm
    _ = w.reverse := by rw [hw]

/-- The five zeros that extend `x` come out of `REV16` below its reversal. -/
theorem rev16_setWidth_shiftRight (x : BitVec 11) :
    rev16 (x.setWidth 16) >>> 5 = x.reverse.setWidth 16 := by
  apply BitVec.eq_of_getLsbD_eq
  intro i hi
  rw [rev16_eq_reverse, BitVec.getLsbD_ushiftRight, BitVec.getLsbD_reverse, BitVec.getMsbD_setWidth,
    BitVec.getLsbD_setWidth, BitVec.getLsbD_reverse]
  simp [hi]

theorem rev11_eq_reverse (x : BitVec 11) : rev11 x = x.reverse := by
  rw [rev11, rev16_setWidth_shiftRight]
  simp

/-- Settles O6: each of the three stages flips one bit of the index. -/
theorem rev8ReversesBits : Obligations.Rev8ReversesBits :=
  fun b _ hi => rev8_getLsbD b hi

/-- Settles O7: by the library's reversal. -/
theorem rev16ReversesBits : Obligations.Rev16ReversesBits := by
  refine ⟨fun _ => rfl, fun w i hi => ?_⟩
  rw [rev16_eq_reverse, getLsbD_reverse_of_lt w hi]

/-- Settles O8: by the library's reversal. -/
theorem rev11ReversesBits : Obligations.Rev11ReversesBits := by
  refine ⟨fun x i hi => ?_, fun x => ?_⟩
  · rw [rev11_eq_reverse, getLsbD_reverse_of_lt x hi]
  · rw [rev11_eq_reverse, rev16_setWidth_shiftRight]

/-- Settles O9: the library's reversal is its own inverse. -/
theorem reversalsAreInvolutions : Obligations.ReversalsAreInvolutions := by
  refine ⟨fun b => ?_, fun w => ?_, fun x => ?_⟩
  · rw [rev8_eq_reverse, rev8_eq_reverse, BitVec.reverse_reverse_eq]
  · rw [rev16_eq_reverse, rev16_eq_reverse, BitVec.reverse_reverse_eq]
  · rw [rev11_eq_reverse, rev11_eq_reverse, BitVec.reverse_reverse_eq]

/-! ### REVB and REVW (rules R49 and R50) -/

/-- Completion without error, field by field (rule R72). -/
theorem State.completeOk_eq (s : State) (v : Word) :
    s.completeOk v = { s with
      res := v, status := ⟨false, true, false, s.status.drop, 0#4⟩, engine := .idle } := rfl

section
variable {s : State} {w a n : Word} (he : s.engine = .pending w a n)
include he

theorem exec_revb_pending :
    exec .revb s = .next (s.completeOk ((rev8 (byteOperand a)).setWidth 32)) := by
  rw [← State.operandA_pending he]
  rfl

theorem exec_revw_pending :
    exec .revw s = .next (s.completeOk ((rev16 (halfOperand a)).setWidth 32)) := by
  rw [← State.operandA_pending he]
  rfl

end

/-- Settles O10: the command completes with the operand latched at acceptance. -/
theorem revbWritesReversedByte : Obligations.RevbWritesReversedByte := by
  refine ⟨decodeWord_encode .revb, fun s w a n he => ?_⟩
  rw [exec_revb_pending he, State.completeOk_eq, byteOperand]

/-- Settles O11: the command completes with the operand latched at acceptance. -/
theorem revwWritesReversedHalf : Obligations.RevwWritesReversedHalf := by
  refine ⟨decodeWord_encode .revw, fun s w a n he => ?_⟩
  rw [exec_revw_pending he, State.completeOk_eq, halfOperand]

end Sys2Proof.Machine

namespace Sys2Proof.Machine

/-! ### The CRC functions (rules R51 to R54, R57 and R62) -/

/-- The repetition the per-byte updates are written with is the library's iterate. -/
theorem natRepeat_eq_iterate {α : Type} (f : α → α) (m : Nat) (x : α) :
    Nat.repeat f m x = f^[m] x := by
  induction m with
  | zero => rfl
  | succ m ih => rw [Function.iterate_succ_apply', ← ih, Nat.repeat]

section
variable {w : Nat} (poly : BitVec w)

theorem crcShift_eq_ite_getLsbD : crcShift poly = fun x : BitVec w =>
    if x.getLsbD (w - 1) = true then (x <<< 1) ^^^ poly else x <<< 1 := by
  funext x
  rw [crcShift, BitVec.msb_eq_getLsbD_last]

/-- One shift is linear over GF(2): the polynomial cancels where both top bits leave. -/
theorem crcShift_xor (x y : BitVec w) :
    crcShift poly (x ^^^ y) = crcShift poly x ^^^ crcShift poly y := by
  unfold crcShift
  rw [BitVec.msb_xor, BitVec.shiftLeft_xor_distrib]
  cases x.msb <;> cases y.msb
  · rfl
  · exact BitVec.xor_assoc ..
  · calc (x <<< 1 ^^^ y <<< 1) ^^^ poly
      _ = (x <<< 1 ^^^ poly) ^^^ y <<< 1 := by ac_rfl
  · calc x <<< 1 ^^^ y <<< 1
      _ = (x <<< 1 ^^^ y <<< 1) ^^^ (poly ^^^ poly) := by rw [BitVec.xor_self, BitVec.xor_zero]
      _ = (x <<< 1 ^^^ poly) ^^^ (y <<< 1 ^^^ poly) := by ac_rfl

theorem iterate_crcShift_xor (m : Nat) (x y : BitVec w) :
    (crcShift poly)^[m] (x ^^^ y) = (crcShift poly)^[m] x ^^^ (crcShift poly)^[m] y := by
  induction m with
  | zero => rfl
  | succ m ih => simp only [Function.iterate_succ_apply', ih, crcShift_xor]

/-- As long as no set bit leaves the register, the polynomial plays no part. -/
theorem iterate_crcShift_of_lt {m : Nat} {x : BitVec w} (h : x.toNat * 2 ^ m < 2 ^ w) :
    (crcShift poly)^[m] x = x <<< m := by
  induction m with
  | zero => simp
  | succ m ih =>
    have hlt : 2 * (x.toNat * 2 ^ m) < 2 ^ w := by rwa [Nat.mul_left_comm, ← Nat.pow_succ']
    have hmsb : (x <<< m).msb = false := by
      rw [BitVec.msb_eq_false_iff_two_mul_lt, BitVec.toNat_shiftLeft, Nat.shiftLeft_eq,
        Nat.mod_eq_of_lt (by omega)]
      exact hlt
    rw [Function.iterate_succ_apply', ih (by omega), BitVec.shiftLeft_add]
    simp [crcShift, hmsb]

end

theorem crc16Byte_eq_iterate (c : Half) (b : Byte) :
    crc16Byte c b = (crcShift Config.poly16)^[8] (c ^^^ b.setWidth 16 <<< 8) :=
  natRepeat_eq_iterate _ _ _

theorem crc32Byte_eq_iterate (c : Word) (b : Byte) :
    crc32Byte c b = (crcShift Config.poly32)^[8] (c ^^^ b.setWidth 32 <<< 24) :=
  natRepeat_eq_iterate _ _ _

/-- The CRC-16 has no final XOR. -/
theorem crc16Value_eq_foldl (d : List Byte) : crc16Value d = d.foldl crc16Byte 0#16 :=
  BitVec.xor_zero

/-- The update of CRC-16 is linear over GF(2) in the register and the byte together. -/
theorem crc16Byte_xor (x y : Half) (b e : Byte) :
    crc16Byte (x ^^^ y) (b ^^^ e) = crc16Byte x b ^^^ crc16Byte y e := by
  simp only [crc16Byte_eq_iterate, ← iterate_crcShift_xor, BitVec.setWidth_xor,
    BitVec.shiftLeft_xor_distrib]
  congr 1
  ac_rfl

theorem foldl_crc16Byte_zipWith_xor {d e : List Byte} (h : d.length = e.length) (x y : Half) :
    (List.zipWith (fun b b' => b ^^^ b') d e).foldl crc16Byte (x ^^^ y) =
      d.foldl crc16Byte x ^^^ e.foldl crc16Byte y := by
  induction d generalizing e x y with
  | nil =>
    cases e with
    | nil => rfl
    | cons => cases h
  | cons b d ih =>
    cases e with
    | nil => cases h
    | cons b' e =>
      simp only [List.zipWith_cons_cons, List.foldl_cons, crc16Byte_xor]
      exact ih (Nat.succ.inj h) _ _

/-- Settles O18: the fold is linear from every pair of registers, and the seed is 0. -/
theorem crc16IsLinear : Obligations.Crc16IsLinear := by
  intro d e h
  simp only [crc16Value_eq_foldl]
  exact foldl_crc16Byte_zipWith_xor h 0#16 0#16

/-- Its own high byte, XORed into the top of a register, leaves the low byte. -/
theorem xor_highByte (c : Half) :
    c ^^^ (c.extractLsb' 8 8).setWidth 16 <<< 8 = (c.extractLsb' 0 8).setWidth 16 := by
  ext i hi
  by_cases h : i < 8
  · simp [h, BitVec.getLsbD_eq_getElem hi]
  · have hhigh : i - 8 < 8 ∧ 8 + (i - 8) = i := by omega
    simp [h, hhigh, BitVec.getLsbD_eq_getElem hi]

/-- A register that takes its own high byte has its low byte moved to the top. -/
theorem crc16Byte_highByte (c : Half) :
    crc16Byte c (c.extractLsb' 8 8) = (c.extractLsb' 0 8).setWidth 16 <<< 8 := by
  rw [crc16Byte_eq_iterate, xor_highByte]
  apply iterate_crcShift_of_lt
  have hlt := (c.extractLsb' 0 8).isLt
  rw [BitVec.toNat_setWidth_of_le (by decide)]
  omega

/-- A register that takes the byte at its top, over zeros, is cleared. -/
theorem crc16Byte_topByte (b : Byte) : crc16Byte (b.setWidth 16 <<< 8) b = 0#16 := by
  rw [crc16Byte_eq_iterate, BitVec.xor_self]
  rfl

/-- Settles O19: the high byte moves the low byte to the top, where the low byte clears it. -/
theorem crc16Residue : Obligations.Crc16Residue := by
  intro d
  rw [crc16Value_eq_foldl (d ++ _), List.foldl_append, ← crc16Value_eq_foldl, List.foldl_cons,
    List.foldl_cons, List.foldl_nil, crc16Byte_highByte, crc16Byte_topByte]

/-- Settles O20: a zero byte leaves the seed as it is. -/
theorem crc16IgnoresLeadingZeros : Obligations.Crc16IgnoresLeadingZeros := by
  intro k d
  have hseed : crc16Byte 0#16 0x00#8 = 0#16 := rfl
  simp only [crc16Value_eq_foldl]
  induction k with
  | zero => rfl
  | succ k ih => rw [List.replicate_succ, List.cons_append, List.foldl_cons, hseed, ih]

theorem four_le_length_padded (d : List Byte) : 4 ≤ (padded d).length := by
  simp only [padded, Config.crc32MinLen, List.length_append, List.length_replicate]
  omega

/-- Four bytes or more are not padded. -/
theorem padded_of_le {d : List Byte} (h : 4 ≤ d.length) : padded d = d := by
  simp [padded, Config.crc32MinLen, Nat.sub_eq_zero_of_le h]

theorem crc32Value_padded (d : List Byte) : crc32Value (padded d) = crc32Value d := by
  rw [crc32Value, padded_of_le (four_le_length_padded d), crc32Value]

/-- Settles O22: padding is done once, and not at all for four bytes or more. -/
theorem crcValuesOfSequences : Obligations.CrcValuesOfSequences := by
  refine ⟨crc16Value_eq_foldl, fun d _ _ => (crc32Value_padded d).symm, fun d h => ?_⟩
  rw [crc32Value, padded_of_le h]
  rfl

/-- Settles O21: the top bit of the register is the one that leaves it. -/
theorem crcByteUpdates : Obligations.CrcByteUpdates := by
  refine ⟨fun c b => ?_, fun c b => ?_⟩
  · rw [crc16Byte_eq_iterate, crcShift_eq_ite_getLsbD]
    rfl
  · rw [crc32Byte_eq_iterate, crcShift_eq_ite_getLsbD]
    rfl

end Sys2Proof.Machine

namespace Sys2Proof.Machine

/-! ### The engine steps of the CRC commands (rules R55, R56, R59 to R61 and R71) -/

/-- Settles O4: by the state of the engine. -/
theorem stepRunsDecodedCommand : Obligations.StepRunsDecodedCommand := by
  refine ⟨fun s w a n i hm he hd => step_pending_ok hm he hd, fun s k a n c i hm he => ?_⟩
  rw [step_engine hm, engineStep_crc (s := s.popTurn) he, ← exec_instr]
  cases k <;> rfl

theorem exists_instr_of_crc {i : Instr} (h : i = .crc16 ∨ i = .crc32) :
    ∃ k : CrcKind, i = k.instr := by
  rcases h with rfl | rfl
  · exact ⟨.c16, rfl⟩
  · exact ⟨.c32, rfl⟩

theorem exec_crc_pending {s : State} {k : CrcKind} {w a n : Word}
    (he : s.engine = .pending w a n) : exec k.instr s = .next (crcStart k a n s) := by
  rw [exec_instr, crcStep_pending he]

/-- Settles O23: the first check of the start step. -/
theorem nullOrEmptyCrcGivesZero : Obligations.NullOrEmptyCrcGivesZero := by
  intro i s w a n hi he h0
  obtain ⟨k, rfl⟩ := exists_instr_of_crc hi
  rw [exec_crc_pending he, crcStart_zero h0, State.completeOk_eq]

/-- Settles O24: the second check of the start step. -/
theorem rangeErrorBeforeReading : Obligations.RangeErrorBeforeReading := by
  intro i s w a n hi he ha hn
  obtain ⟨k, rfl⟩ := exists_instr_of_crc hi
  rw [exec_crc_pending he]
  refine ⟨fun hr => ?_, fun hr => ?_⟩
  · rw [crcStart_range ha hn hr]
    rfl
  · rw [crcStart_begins ha hn (Nat.not_lt.mpr hr)]
    exact ⟨_, rfl, nofun, rfl⟩

/-- Settles O25: the byte step at a failing read. -/
theorem busErrorEndsCrcAtOnce : Obligations.BusErrorEndsCrcAtOnce := by
  intro s k a n c i he hi hbus
  have hexec := (exec_instr k s).trans (crcStep_busError he hi hbus)
  cases k <;> exact hexec

theorem CrcKind.finish_c16 (c : Word) :
    CrcKind.c16.finish c = (c.extractLsb' 0 16).setWidth 32 := by
  rw [CrcKind.finish, Config.xorOut16, BitVec.xor_zero,
    ← BitVec.setWidth_eq_extractLsb' (x := c) (by decide)]

/-- Settles O26: the steps of a CRC, for CRC16. -/
theorem crc16EngineSteps : Obligations.Crc16EngineSteps := by
  refine ⟨fun s w a n he ha hn hr => ?_, fun s a n c i he => ⟨fun hi hm => ?_, fun hi => ?_⟩⟩
  · exact (exec_crc_pending (k := .c16) he).trans
      (congrArg _ (crcStart_begins ha hn (Nat.not_lt.mpr hr)))
  · exact crcStep_read (k := .c16) he hi hm
  · rw [← CrcKind.finish_c16]
    exact crcStep_finish (k := .c16) he hi

/-- Settles O27: the steps of a CRC, for CRC32. -/
theorem crc32EngineSteps : Obligations.Crc32EngineSteps := by
  refine ⟨fun s w a n he ha hn hr => ?_, fun s a n c i he =>
    ⟨fun hi hm => ?_, fun hn hi => ?_, fun hn hi => ?_⟩⟩
  · exact (exec_crc_pending (k := .c32) he).trans
      (congrArg _ (crcStart_begins ha hn (Nat.not_lt.mpr hr)))
  · exact crcStep_read (k := .c32) he hi hm
  · exact crcStep_pad (k := .c32) he hn (lt_max_of_lt_right hi)
  · exact crcStep_finish (k := .c32) he (max_le hn hi)

end Sys2Proof.Machine

namespace Sys2Proof.Machine

/-! ### The four outcomes of a CRC command as a whole (rules R55 to R60) -/

variable {s : State}

section
variable {k : CrcKind} {a n c : Word} {i : BitVec 33} {q : List Turn}

theorem step_crc_busError (hm : s.mover = .engine) (he : s.engine = .crc k a n i c)
    (hi : i.toNat < n.toNat) (hbus : s.kindAt (a.toNat + i.toNat) = .busError) :
    step s = .next ((s.popTurn.logRead (a.toNat + i.toNat)).raiseError .busError) := by
  rw [step_engine hm, engineStep_crc (s := s.popTurn) he,
    crcStep_busError (s := s.popTurn) he hi hbus]

/-- A CRC takes the buffer byte at its index, whatever the platform answers for the others. -/
theorem step_crc_read (hm : s.mover = .engine) (he : s.engine = .crc k a n i c)
    (hi : i.toNat < n.toNat) (hok : s.MemOk (a.toNat + i.toNat)) :
    step s = .next (s.tookByte k a n i c) := by
  rw [step_engine hm, engineStep_crc (s := s.popTurn) he, State.tookByte,
    crcStep_read (s := s.popTurn) he hi hok, State.runByte_lt hi, if_pos hi]
  rfl

/-- The reads from an index within the buffer on begin with the one at that index. -/
theorem bufferAddrs_drop_of_lt (a : Nat) {i m : Nat} (h : i < m) :
    (bufferAddrs a m).drop i = (a + i) :: (bufferAddrs a m).drop (i + 1) := by
  rw [← bufferAddrs_drop_succ, if_pos h, List.singleton_append]

/-- A CRC in progress with `m` bytes to take before byte `j`, which fails, ends with that read. -/
theorem runSteps_crc_fails {m j : Nat} (hq : EngineTurns (m + 1) s.sched q)
    (he : s.engine = .crc k a n i c) (hi : i.toNat + m = j) (hj : j < n.toNat)
    (hok : ∀ x < j, s.MemOk (a.toNat + x)) (hbus : s.kindAt (a.toNat + j) = .busError) :
    runSteps (m + 1) s = .next { s with
      status := s.status.onComplete .busError, engine := .idle, sched := q,
      reads := s.reads ++ (bufferAddrs a.toNat (j + 1)).drop i.toNat } := by
  induction m generalizing s i c with
  | zero =>
    obtain rfl : i.toNat = j := hi
    rw [runSteps_succ (step_crc_busError (hq.mover (by simp [he])) he hj hbus),
      bufferAddrs_drop_of_lt a.toNat (Nat.lt_succ_self _),
      List.drop_of_length_le (bufferAddrs_length _ _).le, ← hq.tail.zero]
    rfl
  | succ m ih =>
    have hlt : i.toNat < j := by omega
    have hin : i.toNat < n.toNat := hlt.trans hj
    have hnext : (i + 1#33).toNat = i.toNat + 1 :=
      CrcKind.toNat_succ (hin.trans_le (k.le_total _))
    rw [runSteps_succ (step_crc_read (hq.mover (by simp [he])) he hin (hok _ hlt)),
      ih (s := s.tookByte k a n i c) hq.tail rfl (by omega) hok hbus, hnext,
      bufferAddrs_drop_of_lt a.toNat (Nat.lt_succ_of_lt hlt)]
    simp only [State.tookByte, if_pos hin, List.append_assoc, List.singleton_append]

section
variable (he : s.engine = .pending (encode k.instr) a n)
include he

/-- The first step of an accepted CRC command, under a schedule that gives the engine its turn. -/
theorem runSteps_crc_start (hq : s.sched = .engine :: q) :
    runSteps 1 s = .next (crcStart k a n { s with sched := q }) := by
  obtain rfl : s.sched.tail = q := congrArg List.tail hq
  exact runSteps_succ (step_pending_crc (State.mover_of_sched hq) he (decodeWord_encode _))

theorem runSteps_crc_zero (h : a = 0#32 ∨ n = 0#32) (hq : s.sched = .engine :: q) :
    runSteps 1 s = .next { s with
      res := 0#32, status := s.status.onComplete .none, engine := .idle, sched := q } := by
  rw [runSteps_crc_start he hq, crcStart_zero h]
  rfl

theorem runSteps_crc_range (ha : a ≠ 0#32) (hn : n ≠ 0#32) (hr : OutOfRange a n)
    (hq : s.sched = .engine :: q) :
    runSteps 1 s = .next { s with
      status := s.status.onComplete .range, engine := .idle, sched := q } := by
  rw [runSteps_crc_start he hq, crcStart_range ha hn hr]
  rfl

/-- An accepted CRC command whose byte `j` is the first that fails takes the start step and one step
for each byte up to `j`. -/
theorem runSteps_crc_busError {j : Nat} (ha : a ≠ 0#32) (hn : n ≠ 0#32) (hr : ¬ OutOfRange a n)
    (hj : j < n.toNat) (hok : ∀ x < j, s.MemOk (a.toNat + x))
    (hbus : s.kindAt (a.toNat + j) = .busError) (hq : EngineTurns (j + 2) s.sched q) :
    runSteps (j + 2) s = .next { s with
      status := s.status.onComplete .busError, engine := .idle, sched := q,
      reads := s.reads ++ bufferAddrs a.toNat (j + 1) } := by
  have hstart := step_pending_crc (hq.mover (by simp [he])) he (decodeWord_encode k.instr)
  rw [crcStart_begins ha hn hr] at hstart
  rw [runSteps_succ hstart]
  exact runSteps_crc_fails (s := s.popTurn.setEngine (.crc k a n 0#33 k.seed)) hq.tail rfl
    (Nat.zero_add _) hj hok hbus

end

end

/-- Settles O28: the four runs of a CRC command, for CRC16. -/
theorem crc16CommandComputesCrc : Obligations.Crc16CommandComputesCrc := by
  intro s a n q he
  have he' : s.engine = .pending (encode CrcKind.c16.instr) a n := he
  exact ⟨runSteps_crc_zero he', runSteps_crc_range he',
    fun ha hn hr j hj hok hbus hq =>
      runSteps_crc_busError he' ha hn (Nat.not_lt.mpr hr) hj hok hbus (.inl hq),
    fun ha hn hr hok hq => runSteps_crc_command (.inl hq) he' ha hn (Nat.not_lt.mpr hr) hok⟩

/-- Settles O29: the four runs of a CRC command, for CRC32. -/
theorem crc32CommandComputesCrc : Obligations.Crc32CommandComputesCrc := by
  intro s a n q he
  have he' : s.engine = .pending (encode CrcKind.c32.instr) a n := he
  exact ⟨runSteps_crc_zero he', runSteps_crc_range he',
    fun ha hn hr j hj hok hbus hq =>
      runSteps_crc_busError he' ha hn (Nat.not_lt.mpr hr) hj hok hbus (.inl hq),
    fun ha hn hr hok hq => runSteps_crc_command (.inl hq) he' ha hn (Nat.not_lt.mpr hr) hok⟩

end Sys2Proof.Machine

namespace Sys2Proof.Machine

/-! ### Progress of a command whose reads are answered (rules R59 and R96) -/

variable {s t : State}

/-- The operands a command reads are those in OPA and OPB (rule R18). -/
theorem State.Inv.operands_eq (hs : s.Inv) : s.operandA = s.opa ∧ s.operandN = s.opb := by
  have hlatched := hs.operandsLatched
  unfold State.OperandsLatched at hlatched
  cases he : s.engine with
  | idle => simp [State.operandA, State.operandN, he]
  | pending w a n =>
    rw [he] at hlatched
    rwa [State.operandA_pending he, State.operandN_pending he]
  | crc k a n i c =>
    rw [he] at hlatched
    rwa [State.operandA_crc he, State.operandN_crc he]

theorem State.BufferAnswered.next_read {k : CrcKind} {a n c : Word} {i : BitVec 33}
    (ha : s.BufferAnswered) (he : s.engine = .crc k a n i c) (hi : i.toNat < n.toNat) :
    s.kindAt (a.toNat + i.toNat) = .memory ∨ s.kindAt (a.toNat + i.toNat) = .busError := by
  rw [State.BufferAnswered, State.operandA_crc he, State.operandN_crc he] at ha
  exact ha _ hi

/-- A platform that answers every read of the running command refuses none of them. -/
theorem State.BufferAnswered.not_refusedRead (ha : s.BufferAnswered) (r : Refusal) :
    ¬ s.RefusedRead r := by
  rintro ⟨k, a, n, c, j, he, hj, hk, -⟩
  simpa [hk] using ha.next_read he hj

/-- A move of the engine keeps the operands and the platform's answers. -/
theorem EngineMove.bufferAnswered (h : EngineMove s t) (hs : s.Inv) (ha : s.BufferAnswered) :
    t.BufferAnswered := by
  have hframe := h.sameOutsideEngine
  obtain ⟨hsa, hsn⟩ := hs.operands_eq
  obtain ⟨hta, htn⟩ := (h.inv hs).operands_eq
  have hA : t.operandA = s.operandA := by rw [hta, hframe.opa, hsa]
  have hN : t.operandN = s.operandN := by rw [htn, hframe.opb, hsn]
  simpa only [State.BufferAnswered, State.kindAt, hframe.map, hA, hN] using ha

theorem State.stepsLeft_pos (he : s.engine ≠ .idle) : 0 < s.stepsLeft := by
  unfold State.stepsLeft
  cases h : s.engine with
  | idle => exact absurd h he
  | pending => exact Nat.succ_pos _
  | crc => exact Nat.succ_pos _

theorem CrcKind.total_le_max (k : CrcKind) (n : Nat) : k.total n ≤ max n Config.crc32MinLen := by
  cases k
  · exact le_max_left n _
  · exact le_rfl

/-- A CRC that starts has a step less to take than the bound at acceptance. -/
theorem State.stepsLeft_begun {k : CrcKind} {w a n c : Word} (he : s.engine = .pending w a n)
    (ht : t.engine = .crc k a n 0#33 c) : t.stepsLeft < s.stepsLeft := by
  have htotal := k.total_le_max n.toNat
  simp only [State.stepsLeft, he, ht, BitVec.toNat_zero]
  omega

/-- A CRC that takes a byte has a step less to take. -/
theorem State.stepsLeft_crc_next {k : CrcKind} {a n c c' : Word} {i : BitVec 33}
    (he : s.engine = .crc k a n i c) (hi : i.toNat < k.total n.toNat)
    (ht : t.engine = .crc k a n (i + 1#33) c') : t.stepsLeft < s.stepsLeft := by
  have hnext : (i + 1#33).toNat = i.toNat + 1 := CrcKind.toNat_succ hi
  simp only [State.stepsLeft, he, ht, hnext]
  omega

/-- A move of a busy engine whose reads are answered completes the command or uses up a step. -/
theorem EngineMove.progress (h : EngineMove s t) (he : s.engine ≠ .idle) (ha : s.BufferAnswered) :
    (t.status.busy = false ∧ t.status.done = true) ∨
      (t.engine ≠ .idle ∧ t.stepsLeft < s.stepsLeft) := by
  cases h with
  | idle hidle => exact absurd hidle he
  | completed => exact .inl ⟨rfl, rfl⟩
  | illegal => exact .inl ⟨rfl, rfl⟩
  | outOfRange => exact .inl ⟨rfl, rfl⟩
  | busError => exact .inl ⟨rfl, rfl⟩
  | begun hpend => exact .inr ⟨nofun, State.stepsLeft_begun hpend rfl⟩
  | @read k a n c i hcrc hi =>
    exact .inr ⟨nofun, State.stepsLeft_crc_next hcrc (hi.trans_le (k.le_total _)) rfl⟩
  | padded hcrc _ hi => exact .inr ⟨nofun, State.stepsLeft_crc_next hcrc hi rfl⟩
  | unanswered hcrc hi hk => simpa [hk] using ha.next_read hcrc hi

/-- An engine turn is answered with a next state when the reads of the command are. -/
theorem exists_engineStep_next (ha : s.BufferAnswered) : ∃ t, engineStep s = .next t :=
  exists_next_of_no_stop engineStep_stops.1 fun r h =>
    ha.not_refusedRead r (engineStep_stops.2 r h)

/-- A busy engine is done within any number of its turns that is at least the bound. -/
theorem exists_run_done {m : Nat} {q : List Turn} (hs : s.Inv) (he : s.engine ≠ .idle)
    (ha : s.BufferAnswered) (hle : s.stepsLeft ≤ m) (hq : EngineTurns m s.sched q) :
    ∃ k ≤ m, ∃ t, runSteps k s = .next t ∧ t.status.busy = false ∧ t.status.done = true := by
  induction m generalizing s with
  | zero => exact absurd hle (Nat.not_le.mpr (State.stepsLeft_pos he))
  | succ m ih =>
    obtain ⟨t, ht⟩ := exists_engineStep_next (s := s.popTurn) ha
    have hstep : step s = .next t := (step_engine (hq.mover he)).trans ht
    have hmove := engineStep_move ht
    rcases hmove.progress he ha with hdone | ⟨het, hlt⟩
    · exact ⟨1, Nat.le_add_left 1 m, t, runSteps_succ hstep, hdone⟩
    · have hqt : EngineTurns m t.sched q := step_sched hstep ▸ hq.tail
      obtain ⟨k, hk, u, hrun, hdone⟩ := ih (hs.step hstep) het
        (hmove.bufferAnswered hs.popTurn ha) (Nat.le_of_lt_succ (hlt.trans_le hle)) hqt
      exact ⟨k + 1, Nat.succ_le_succ hk, u, (runSteps_succ hstep).trans hrun, hdone⟩

/-- Settles O58: by induction on the engine's turns, each of which uses up a step. -/
theorem busyEndsWhenReadsAreAnswered : Obligations.BusyEndsWhenReadsAreAnswered := by
  intro s q hs hb ha hq
  have he : s.engine ≠ .idle := fun h => by simp [hs.busyAgrees.mpr h] at hb
  exact exists_run_done hs he ha le_rfl (.inl hq)

end Sys2Proof.Machine

namespace Sys2Proof.Machine

/-! ### Fields of a reversal -/

/-- A field of a reversal is the reversal of the field at the mirrored place. -/
theorem extractLsb'_reverse {m start len : Nat} (x : BitVec m) (h : start + len ≤ m) :
    x.reverse.extractLsb' start len = (x.extractLsb' (m - (start + len)) len).reverse := by
  apply BitVec.eq_of_getLsbD_eq
  intro i hi
  have hmirror : m - 1 - (start + i) = m - (start + len) + (len - 1 - i) := by omega
  have hlast : len - 1 - i < len := by omega
  rw [BitVec.getLsbD_extractLsb', getLsbD_reverse_of_lt x (by omega), getLsbD_reverse_of_lt _ hi,
    BitVec.getLsbD_extractLsb', hmirror, decide_eq_true hi, decide_eq_true hlast]

theorem reverse_ofBool (b : Bool) : (BitVec.ofBool b).reverse = BitVec.ofBool b := by
  cases b <;> rfl

/-- Three bits read the same backwards exactly when the outer two agree. -/
theorem reverse_eq_self_iff (x : BitVec 3) : x.reverse = x ↔ x.getLsbD 2 = x.getLsbD 0 := by
  revert x
  decide

/-- Three bits are the append of their bits. -/
theorem append_ofBool_getLsbD (x : BitVec 3) :
    BitVec.ofBool (x.getLsbD 2) ++ BitVec.ofBool (x.getLsbD 1) ++ BitVec.ofBool (x.getLsbD 0)
      = x := by
  revert x
  decide

/-! ### The closed forms of the codec, in both readings (rules R63, R66 and R69) -/

/-- What stands in `b0[7:5]` for the length bits `x = L[10:8]`. -/
def storedHighBits (o : PhrHiOrder) (x : BitVec 3) : BitVec 3 :=
  match o with
  | .twice => x
  | .once  => x.reverse

theorem storedHighBits_storedHighBits (o : PhrHiOrder) (x : BitVec 3) :
    storedHighBits o (storedHighBits o x) = x := by
  cases o with
  | twice => rfl
  | once => exact BitVec.reverse_reverse_eq

/-- `b0[4:0]`: DW, CE, the two reserved bits and MS. -/
def storedLowBits (h : Header) : BitVec 5 :=
  BitVec.ofBool h.dw ++ (BitVec.ofBool h.ce ++ (0#2 ++ BitVec.ofBool h.ms))

/-- Byte 0's final reversal takes the length bits from `p0[2:0]` to `b0[7:5]`. -/
theorem reverse_hiLengthBits (o : PhrHiOrder) (len : BitVec 11) :
    (hiLengthBits o len).reverse = storedHighBits o (len.extractLsb' 8 3) := by
  cases o with
  | twice =>
    rw [hiLengthBits, rev11_eq_reverse, extractLsb'_reverse len (by decide),
      BitVec.reverse_reverse_eq, storedHighBits]
  | once => rfl

/-- The fields that the construction ORs into `p0` do not overlap. -/
theorem assembleByte0_eq (o : PhrHiOrder) (h : Header) :
    assembleByte0 o h =
      BitVec.ofBool h.ms ++ 0#2 ++ BitVec.ofBool h.ce ++ BitVec.ofBool h.dw
        ++ hiLengthBits o h.len := by
  apply BitVec.eq_of_getLsbD_eq
  intro i hi
  simp only [BitVec.getLsbD_append]
  interval_cases i <;> simp [assembleByte0]

theorem rev8_assembleByte0 (o : PhrHiOrder) (h : Header) :
    rev8 (assembleByte0 o h) =
      storedHighBits o (h.len.extractLsb' 8 3) ++ storedLowBits h := by
  rw [rev8_eq_reverse, assembleByte0_eq, BitVec.reverse_append, BitVec.reverse_append,
    BitVec.reverse_append, BitVec.reverse_append, reverse_hiLengthBits, reverse_ofBool,
    reverse_ofBool, reverse_ofBool]
  rfl

/-- The stored layout of rule R63. -/
theorem encodeHeader_eq (o : PhrHiOrder) (h : Header) :
    encodeHeader o h =
      (storedHighBits o (h.len.extractLsb' 8 3) ++ storedLowBits h,
        rev8 (h.len.extractLsb' 0 8)) := by
  rw [encodeHeader, rev8_assembleByte0, BitVec.setWidth_ushiftRight_eq_extractLsb,
    rev11_eq_reverse, extractLsb'_reverse h.len (by decide), rev8_eq_reverse]

/-- The length field is read from `b0[7:5]` and b1. -/
theorem decodedLength_rev8 (o : PhrHiOrder) (b0 b1 : Byte) :
    decodedLength o (rev8 b0) b1 = storedHighBits o (b0.extractLsb' 5 3) ++ rev8 b1 := by
  have hlow : (rev8 b0).extractLsb' 0 3 = (b0.extractLsb' 5 3).reverse := by
    rw [rev8_eq_reverse, extractLsb'_reverse b0 (by decide)]
  cases o with
  | twice =>
    rw [decodedLength, hlow, rev11_eq_reverse, BitVec.reverse_append, BitVec.reverse_reverse_eq,
      rev8_eq_reverse]
    rfl
  | once => rw [decodedLength, hlow, storedHighBits]

/-- The closed form of rule R66. -/
theorem decodeHeader_eq (o : PhrHiOrder) (b0 b1 : Byte) :
    decodeHeader o b0 b1 =
      ⟨storedHighBits o (b0.extractLsb' 5 3) ++ rev8 b1, b0.getLsbD 0, b0.getLsbD 3,
        b0.getLsbD 4⟩ := by
  rw [decodeHeader, decodedLength_rev8, rev8_getLsbD b0 (by decide), rev8_getLsbD b0 (by decide),
    rev8_getLsbD b0 (by decide)]

theorem append_storedLowBits_flags (x : BitVec 3) (h : Header) :
    (x ++ storedLowBits h).getLsbD 0 = h.ms ∧ (x ++ storedLowBits h).getLsbD 3 = h.ce ∧
      (x ++ storedLowBits h).getLsbD 4 = h.dw := by
  simp only [storedLowBits, BitVec.getLsbD_append]
  simp

theorem append_storedLowBits_reserved (x : BitVec 3) (h : Header) :
    (x ++ storedLowBits h).extractLsb' 1 2 = 0#2 := by
  rw [BitVec.extractLsb'_append_eq_of_add_le (by decide), storedLowBits,
    BitVec.extractLsb'_append_eq_of_add_le (by decide),
    BitVec.extractLsb'_append_eq_of_add_le (by decide)]
  exact BitVec.extractLsb'_append_eq_left

/-! ### The construction (rules R63 and R64) -/

/-- The low three bits of the bit-reversed length, each by its place in the length. -/
theorem extractLsb'_rev11_low (l : BitVec 11) :
    (rev11 l).extractLsb' 0 3 = BitVec.ofBool (l.getLsbD 8) ++ BitVec.ofBool (l.getLsbD 9)
      ++ BitVec.ofBool (l.getLsbD 10) := by
  rw [← append_ofBool_getLsbD ((rev11 l).extractLsb' 0 3), rev11_eq_reverse]
  simp [BitVec.getElem_reverse, BitVec.getMsbD_eq_getLsbD]

/-- Settles O12: the masks of the construction keep the bits that the encoder takes, and the two
layouts are the closed forms of b0, b1 and `p0`. -/
theorem headerConstructionGivesStoredLayout : Obligations.HeaderConstructionGivesStoredLayout := by
  intro len ms ce dw l r p0
  have hmask : (r &&& 0x07#11).setWidth 8 = (r.extractLsb' 0 3).setWidth 8 := by
    apply BitVec.eq_of_getLsbD_eq
    intro i hi
    interval_cases i <;> simp
  have hp0 : p0 = assembleByte0 .twice ⟨l, ms, ce, dw⟩ := congrArg (_ ||| ·) hmask
  have hb1 : ((r >>> 3) &&& 0xFF#11).setWidth 8 = (r >>> 3).setWidth 8 := by
    rw [BitVec.setWidth_and]
    exact BitVec.and_allOnes
  refine ⟨?_, ?_, ?_⟩
  · rw [hp0, hb1, encodeHeader]
  · rw [encodeHeader_eq, storedLowBits, BitVec.append_assoc', BitVec.append_assoc',
      BitVec.append_assoc']
    rfl
  · rw [hp0, assembleByte0_eq, hiLengthBits, extractLsb'_rev11_low, BitVec.append_assoc',
      BitVec.append_assoc']
    rfl

/-! ### Reserved bits and the round trip of the codec (rules R67 and R69) -/

/-- Two first bytes that agree outside `b0[2:1]` decode to the same header. -/
theorem decodeHeader_congr (o : PhrHiOrder) {b0 b0' : Byte} (b1 : Byte)
    (h : ∀ i < 8, i ≠ 1 → i ≠ 2 → b0.getLsbD i = b0'.getLsbD i) :
    decodeHeader o b0 b1 = decodeHeader o b0' b1 := by
  have hhigh : b0.extractLsb' 5 3 = b0'.extractLsb' 5 3 := by
    apply BitVec.eq_of_getLsbD_eq
    intro i hi
    rw [BitVec.getLsbD_extractLsb', BitVec.getLsbD_extractLsb',
      h (5 + i) (by omega) (by omega) (by omega)]
  rw [decodeHeader_eq, decodeHeader_eq, hhigh, h 0 (by decide) (by decide) (by decide),
    h 3 (by decide) (by decide) (by decide), h 4 (by decide) (by decide) (by decide)]

/-- Settles O15: bits 2 and 1 of the layout are 0, and the closed form of decoding reads neither. -/
theorem reservedHeaderBits : Obligations.ReservedHeaderBits := by
  refine ⟨fun o h => ?_, fun o b0 b0' b1 => decodeHeader_congr o b1⟩
  rw [encodeHeader_eq]
  exact append_storedLowBits_reserved _ h

theorem decodeHeader_encodeHeader (o : PhrHiOrder) (h : Header) :
    decodeHeader o (encodeHeader o h).1 (encodeHeader o h).2 = h := by
  obtain ⟨hms, hce, hdw⟩ :=
    append_storedLowBits_flags (storedHighBits o (h.len.extractLsb' 8 3)) h
  have hlen : h.len.extractLsb' 8 3 ++ h.len.extractLsb' 0 8 = h.len :=
    BitVec.extractLsb'_append_extractLsb' (w := 3) (len := 8)
  rw [encodeHeader_eq, decodeHeader_eq, hms, hce, hdw, BitVec.extractLsb'_append_eq_left,
    storedHighBits_storedHighBits, rev8_eq_reverse, rev8_eq_reverse, BitVec.reverse_reverse_eq,
    hlen]

/-! ### The two readings compared (rule R69) -/

/-- Under ONCE, `b0[7:5]` holds `L[10:8]` backwards. -/
theorem encodeHeader_once_getLsbD (h : Header) {i : Nat} (hi : i < 3) :
    (encodeHeader .once h).1.getLsbD (5 + i) = h.len.getLsbD (10 - i) := by
  have hbit : 8 + (3 - 1 - i) = 10 - i := by omega
  have hlast : 3 - 1 - i < 3 := by omega
  rw [encodeHeader_eq, storedHighBits, BitVec.getLsbD_append, if_neg (by omega),
    Nat.add_sub_cancel_left, getLsbD_reverse_of_lt _ hi, BitVec.getLsbD_extractLsb', hbit,
    decide_eq_true hlast, Bool.true_and]

/-- The readings differ in nothing but the order of `L[10:8]` in `b0[7:5]`. -/
theorem encodeHeader_once_twice (h : Header) :
    (encodeHeader .once h).2 = (encodeHeader .twice h).2 ∧
      (encodeHeader .once h).1.extractLsb' 0 5 = (encodeHeader .twice h).1.extractLsb' 0 5 ∧
      ((encodeHeader .once h).1 = (encodeHeader .twice h).1 ↔
        h.len.getLsbD 10 = h.len.getLsbD 8) := by
  rw [encodeHeader_eq, encodeHeader_eq]
  refine ⟨rfl, ?_, ?_⟩
  · rw [BitVec.extractLsb'_append_eq_right, BitVec.extractLsb'_append_eq_right]
  · rw [BitVec.append_left_inj]
    simpa [storedHighBits] using reverse_eq_self_iff (h.len.extractLsb' 8 3)

/-- Adding 1024 flips bit 10 and keeps bit 8, so the readings differ for just one of `l` and
`1024 + l`. -/
theorem length_filter_readings_differ :
    ((List.range 2048).filter fun l => l.testBit 10 != l.testBit 8).length = 1024 := by
  have hflip (l : Nat) : ((1024 + l).testBit 10 != (1024 + l).testBit 8) =
      decide (¬(l.testBit 10 != l.testBit 8) = true) := by
    rw [Nat.testBit_two_pow_add_eq l 10, Nat.testBit_two_pow_add_gt (i := 10) (by decide)]
    cases l.testBit 10 <;> cases l.testBit 8 <;> rfl
  rw [← List.countP_eq_length_filter, List.range_add (n := 1024) (m := 1024), List.countP_append,
    List.countP_map, Function.comp_def]
  simp only [hflip]
  rw [← List.length_eq_countP_add_countP, List.length_range]

/-! ### HENC and HDEC (rules R65, R66, R68 and R69) -/

theorem headerOperand_eq (a n : Word) :
    headerOperand a n = ⟨a.extractLsb' 0 11, n.getLsbD 2, n.getLsbD 1, n.getLsbD 0⟩ := by
  rw [headerOperand, halfOperand, BitVec.extractLsb'_extractLsb'_of_le (by decide)]
  rfl

/-- HENC's result holds the two header bytes below the whole half of the length. -/
theorem packEncoded_halves (len : Half) (b0 b1 : Byte) :
    (packEncoded len b0 b1).extractLsb' 0 16 = b1 ++ b0 ∧
      (packEncoded len b0 b1).extractLsb' 16 16 = len := by
  rw [packEncoded, BitVec.append_assoc]
  exact ⟨BitVec.extractLsb'_append_eq_right, BitVec.extractLsb'_append_eq_left⟩

/-- The length field and the flags in HDEC's result. -/
theorem packDecoded_fields (h : Header) :
    (packDecoded h).extractLsb' 0 11 = h.len ∧
      (packDecoded h).extractLsb' 16 3 =
        BitVec.ofBool h.ms ++ BitVec.ofBool h.ce ++ BitVec.ofBool h.dw := by
  refine ⟨BitVec.extractLsb'_append_eq_right, ?_⟩
  rw [packDecoded, BitVec.extractLsb'_append_eq_of_le (by decide),
    BitVec.extractLsb'_append_eq_of_le (by decide), BitVec.append_assoc, BitVec.append_assoc,
    BitVec.append_assoc]
  exact BitVec.extractLsb'_append_eq_right

/-- HDEC's operand bytes of HENC's result are the header bytes. -/
theorem hdecResult_hencResult (o : PhrHiOrder) (a n : Word) :
    hdecResult o (hencResult o a n) = packDecoded (headerOperand a n) := by
  obtain ⟨hlane0, hlane1⟩ := byteLane_packEncoded (halfOperand a)
    (encodeHeader o (headerOperand a n)).1 (encodeHeader o (headerOperand a n)).2
  have hb0 : b0Operand (hencResult o a n) = (encodeHeader o (headerOperand a n)).1 := hlane0
  have hb1 : b1Operand (hencResult o a n) = (encodeHeader o (headerOperand a n)).2 := hlane1
  rw [hdecResult, hb0, hb1, decodeHeader_encodeHeader]

section
variable {s : State} {w a n : Word} (he : s.engine = .pending w a n)
include he

theorem exec_henc_pending : exec .henc s = .next (s.completeOk (hencResult .twice a n)) := by
  rw [← State.operandA_pending he, ← State.operandN_pending he]
  rfl

theorem exec_hdec_pending : exec .hdec s = .next (s.completeOk (hdecResult .twice a)) := by
  rw [← State.operandA_pending he]
  rfl

end

/-- HDEC of what HENC left in RES packs the header that HENC's operands named. -/
theorem exec_hdec_of_exec_henc {s t s' : State} {w w' a n n' : Word}
    (he : s.engine = .pending w a n) (ht : exec .henc s = .next t)
    (he' : s'.engine = .pending w' t.res n') :
    exec .hdec s' = .next (s'.completeOk (packDecoded (headerOperand a n))) := by
  have hres : t.res = hencResult .twice a n := by
    rw [exec_henc_pending he] at ht
    cases ht
    rfl
  rw [exec_hdec_pending he', hres, hdecResult_hencResult]

/-- Settles O16: the header named depends on `a[10:0]` alone, and the echo is the upper half. -/
theorem longLengthsKeepToTheirField : Obligations.LongLengthsKeepToTheirField := by
  refine ⟨fun a a' n h => ?_, fun a n => (packEncoded_halves _ _ _).2⟩
  rw [hencResult, hencResult, (packEncoded_halves _ _ _).1, (packEncoded_halves _ _ _).1,
    headerOperand_eq, headerOperand_eq, h]

/-- Settles O17: decoding undoes encoding, and the two layouts differ only in `b0[7:5]`. -/
theorem headerRoundTrip : Obligations.HeaderRoundTrip := by
  refine ⟨fun s t w w' a n n' he ht s' he' => ⟨_, exec_hdec_of_exec_henc he ht he', ?_⟩,
    decodeHeader_encodeHeader, fun h => ?_, length_filter_readings_differ⟩
  · obtain ⟨hlen, hflags⟩ := packDecoded_fields (headerOperand a n)
    rw [State.completeOk_res, hlen, hflags, headerOperand_eq]
    exact ⟨rfl, by simpa using append_ofBool_getLsbD (n.extractLsb' 0 3)⟩
  · obtain ⟨hb1, hlow, hsame⟩ := encodeHeader_once_twice h
    exact ⟨hb1, hlow, ⟨encodeHeader_once_getLsbD h (i := 0) (by decide),
      encodeHeader_once_getLsbD h (i := 1) (by decide),
      encodeHeader_once_getLsbD h (i := 2) (by decide)⟩, hsame⟩

/-- Settles O13: the command completes with the operands latched at acceptance. -/
theorem hencWritesHeader : Obligations.HencWritesHeader := by
  refine ⟨decodeWord_encode .henc, fun s w a n he => ?_⟩
  rw [exec_henc_pending he, State.completeOk_eq, hencResult, headerOperand_eq]
  rfl

/-- Settles O14: the command completes with the closed form of decoding, packed. -/
theorem hdecReadsHeader : Obligations.HdecReadsHeader := by
  refine ⟨decodeWord_encode .hdec, fun s w a n he => ?_⟩
  have hhigh : (b0Operand a).extractLsb' 5 3 = a.extractLsb' 5 3 :=
    BitVec.extractLsb'_extractLsb'_of_le (by decide)
  rw [exec_hdec_pending he, State.completeOk_eq, hdecResult, decodeHeader_eq, hhigh, packDecoded,
    BitVec.append_assoc']
  simp [b0Operand, b1Operand, storedHighBits]

end Sys2Proof.Machine

namespace Sys2Proof.Machine

/-! ### The order of moves (rules R70, R77, R79 and R85) -/

variable {s : State}

theorem State.popTurn_of_sched {u : Turn} {q : List Turn} (h : s.sched = u :: q) :
    s.popTurn = { s with sched := q } := by
  rw [State.popTurn, h, List.tail_cons]

/-- A word written to CMD while BUSY = 0 is latched with the operands of that moment. -/
theorem step_wr_cmd_idle {w : Word} {p : List HostStmt} (hm : s.mover = .host)
    (hh : s.host = wr s.regBase .cmd w :: p) (hb : s.status.busy = false) :
    step s = .next { s with
      engine := .pending w s.opa s.opb, status := ⟨true, false, false, s.status.drop, 0#4⟩,
      host := p, sched := s.sched.tail, reply := .ack } := by
  rw [step_wr hm hh, State.writeReg_cmd_idle (s.popTurn.setHost p) hb]
  rfl

/-- Settles O32: the acceptance of a word. -/
theorem commandWriteIsAccepted : Obligations.CommandWriteIsAccepted :=
  fun _ _ _ hm hh hb => step_wr_cmd_idle hm hh hb

/-- Settles O34: the dropped write. -/
theorem writesWhileBusyAreDropped : Obligations.WritesWhileBusyAreDropped :=
  fun _ _ _ _ hr hm hh hb => step_wr_busy hm hr hh hb

section
variable {k : CrcKind} {a n c w : Word} {i : BitVec 33} {p : List HostStmt} {q : List Turn}

/-- The finish step of a CRC, whatever its register holds. -/
theorem step_crc_completes (hm : s.mover = .engine) (he : s.engine = .crc k a n i c)
    (hi : k.total n.toNat ≤ i.toNat) : step s = .next (s.popTurn.completeOk (k.finish c)) := by
  rw [step_engine hm, engineStep_crc (s := s.popTurn) he, crcStep_finish (s := s.popTurn) he hi]

variable (he : s.engine = .crc k a n i c) (hi : k.total n.toNat ≤ i.toNat)
  (hh : s.host = wr s.regBase .cmd w :: p)
include he hi hh

/-- A word written to CMD just before the finish step of a CRC is dropped. -/
theorem runSteps_cmd_before_finish (hb : s.status.busy = true)
    (hq : s.sched = .host :: .engine :: q) :
    runSteps 2 s = .next { s with
      res := k.finish c, status := ⟨false, true, false, true, 0#4⟩, engine := .idle,
      host := p, sched := q, reply := .ack } := by
  rw [runSteps_succ (step_wr_busy (State.mover_of_sched hq) (.inl rfl) hh hb), hq]
  exact runSteps_succ (step_crc_completes (State.mover_of_sched rfl) he hi)

/-- A word written to CMD just after the finish step of a CRC is accepted. -/
theorem runSteps_cmd_after_finish (hq : s.sched = .engine :: .host :: q) :
    runSteps 2 s = .next { s with
      res := k.finish c, status := ⟨true, false, false, s.status.drop, 0#4⟩,
      engine := .pending w s.opa s.opb, host := p, sched := q, reply := .ack } := by
  rw [runSteps_succ (step_crc_completes (State.mover_of_sched hq) he hi),
    State.popTurn_of_sched hq]
  exact runSteps_succ (step_wr_cmd_idle (State.mover_of_sched rfl) hh rfl)

end

/-- Settles O5: each turn of the schedule, and the two orders at the finish step of a CRC. -/
theorem everyOrderOfMovesIsAdmitted : Obligations.EveryOrderOfMovesIsAdmitted := by
  refine ⟨fun s rest h => ?_, fun s rest h => ?_, fun s rest h => ?_,
    fun s k a n c w i p q he hi hb hh =>
      ⟨runSteps_cmd_before_finish he hi.ge hh hb, runSteps_cmd_after_finish he hi.ge hh⟩⟩
  · rw [step_host (State.mover_of_sched h), State.popTurn_of_sched h]
  · rw [step_engine (State.mover_of_sched h), State.popTurn_of_sched h]
  · rw [step_reset (State.mover_of_sched h), State.popTurn_of_sched h]

end Sys2Proof.Machine

namespace Sys2Proof.Machine
variable {s : State}

/-- STATUS reads 0 after a reset, whatever the state before it (rule R20). -/
theorem State.assertReset_status_word : s.assertReset.status.word = 0x00000000#32 := by
  obtain ⟨-, -, -, hword, -⟩ := resetStateIsZero
  rw [State.assertReset_status]
  exact hword

/-- Settles O53: the step of a reset turn answers the reset block, which is Idle and keeps the list
of reads. -/
theorem resetAbandonsCommand : Obligations.ResetAbandonsCommand := by
  intro s q h
  have hstep : step s = .next s.popTurn.assertReset := step_reset (State.mover_of_sched h)
  exact ⟨_, hstep, State.assertReset_opa _, State.assertReset_opb _, State.assertReset_res _,
    State.assertReset_status_word, State.assertReset_status _, State.assertReset_engine _,
    (State.assertReset_reads _).trans (State.popTurn_reads s)⟩

end Sys2Proof.Machine

namespace Sys2Proof.Machine

/-- A step on a reset turn answers the reset block and no other state. -/
theorem eq_assertReset_of_step {s t : State} (hm : s.mover = .reset) (h : step s = .next t) :
    t = s.popTurn.assertReset := by
  rw [step_reset hm] at h
  cases h
  rfl

/-- Settles O54: neither taking the turn nor the reset of the block reaches the fields outside the
block, and a byte depends on memory alone. -/
theorem resetChangesTheBlockAlone : Obligations.ResetChangesTheBlockAlone := by
  intro s t hm h
  obtain rfl := eq_assertReset_of_step hm h
  have hmem : s.popTurn.assertReset.mem = s.mem :=
    (State.assertReset_mem _).trans (State.popTurn_mem s)
  refine ⟨hmem, State.byteAt_congr hmem, ?_⟩
  simp

end Sys2Proof.Machine
